-- ==== Sys2Proof/Word.lean ====
section
/-!
DEFINITION. The widths the block moves (00_scope.md R11): bytes, 16-bit command words and results, 7-bit
slave addresses.
-/

namespace Sys2Proof

/-- A buffer slot, the data register, a status code or STATUS (R11). -/
abbrev Byte := BitVec 8

/-- A host command word or a host result (R11, R52, R59). -/
abbrev Word := BitVec 16

/-- A slave address, always 7 bits (R11, R38, R54). -/
abbrev Addr := BitVec 7

end Sys2Proof
end

