-- ==== Sys2Proof/Config.lean ====
section
/-!
DEFINITION. What is fixed for a machine (the parameters of 10_state.md R18), the moves the environment
chooses among (00_scope.md R3), and the values the spec leaves free.
-/

namespace Sys2Proof

/-- The eleven event classes of 30_encoding.md R65. -/
inductive EventClass where
  | start | repStart
  | slawAck | slarAck | slawNack | slarNack
  | dtxAck | dtxNack | drxAck | drxNack
  | other
deriving DecidableEq, Repr

/-- One row of a status map: the codes `s` with `s &&& mask = pattern` belong to `cls`
(the shape of the table of R66). -/
structure StatusRow where
  mask    : Byte
  pattern : Byte
  cls     : EventClass
deriving DecidableEq, Repr

/-- `STATUS_MAP` (R10, R65) as plain data: the first row that fits gives the class, and a code no row fits
is `other`. Every total function from codes to classes is such a list (Laws/Decode.lean). -/
abbrev StatusMap := List StatusRow

/-- The parameters of the step relation (R18). DESIGN CHOICE (log 4): they stand in the state, where no step
changes them, so that a statement about every state covers every parameter. -/
structure Params where
  /-- `C`, the capacity of each ring buffer (R8) -/
  capacity  : Nat
  /-- `W_BTR`, the width of BTR (R9) -/
  btrWidth  : Nat
  /-- `STATUS_MAP` (R10) -/
  statusMap : StatusMap
  /-- the host program, a finite list of command words (R75) -/
  program   : List Word
deriving DecidableEq, Repr

/-- The ranges of R8 and R9. -/
abbrev Params.wf (p : Params) : Prop :=
  1 ≤ p.capacity ∧ p.capacity ≤ 32768 ∧ 8 ≤ p.btrWidth ∧ p.btrWidth ≤ 16

/-- Which ring buffer (R19). -/
inductive Buffer where
  | tx | rx
deriving DecidableEq, Repr

/-- One move of one agent, as the environment may choose it (R3, R46): HOST moves, SEQ moves, or ENG answers
with a drawn status code and byte (R104), drops a CLEAR (R105) or completes a STOP (R106). -/
inductive Move where
  | host
  | seq
  | engAnswer (s d : Byte)
  | engDrop
  | engStop
deriving DecidableEq, Repr, Inhabited

/-- The default capacity (R8). -/
def Config.defaultCapacity : Nat := 16

/-- The default width of BTR (R9). -/
def Config.defaultBtrWidth : Nat := 8

/-- FREE VALUE (K14, R19; log 2). What a slot of a ring buffer holds before anything has been pushed into it. -/
opaque Config.unwrittenSlot : Buffer → Nat → Byte

/-- FREE VALUE (R46, R104, R116; log 1). The `n`-th move when the schedule in the state gives none. -/
opaque Config.freeMove : Nat → Move

end Sys2Proof
end

