-- ==== Sys2Proof/Syntax.lean ====
section
/-!
DEFINITION. The instructions: one constructor for each row of spec/opcode_table.json.
-/

namespace Sys2Proof

/-- Host commands (30_encoding.md R53), the pseudo-instruction (R63), the illegal words (R60) and the rows of
the event sequencer (R65). An event carries the status code delivered, low bits included (R91). -/
inductive Instr where
  | beginTx (addr : Addr)
  | write (data : Byte)
  | endTx
  | beginRx (addr : Addr)
  | requestBytes (n : Byte)
  | available
  | read
  | endRx
  | getStatus
  | getBtr
  | requestFrom (addr : Addr) (n : Byte)
  | illegal (cw : Word)
  | evStart (s : Byte)
  | evRepStart (s : Byte)
  | evSlawAck (s : Byte)
  | evSlawNack (s : Byte)
  | evDtxAck (s : Byte)
  | evDtxNack (s : Byte)
  | evSlarAck (s : Byte)
  | evSlarNack (s : Byte)
  | evDrxAck (s : Byte)
  | evDrxNack (s : Byte)
  | evOther (s : Byte)
deriving DecidableEq, Repr

/-- What stands for an instruction at the block's boundary: command words at the host command port (R52), or a
status code from the engine (R65). -/
inductive Encoded where
  | words (ws : List Word)
  | status (s : Byte)
deriving DecidableEq, Repr

end Sys2Proof
end

