-- ==== Sys2Proof/Decode.lean ====
section
/-!
DEFINITION. Decoding of host command words (30_encoding.md R52-R61) and classification of status codes
(R65, R66), both total; after them the encoder, written from the same tables.
-/

namespace Sys2Proof

/-! ### Fields of a command word (R52) -/

/-- `OP = CW[15:12]`. -/
def cwOp (w : Word) : BitVec 4 := w.extractLsb' 12 4

/-- `RSV = CW[11:8]`. -/
def cwRsv (w : Word) : BitVec 4 := w.extractLsb' 8 4

/-- `ARG = CW[7:0]`. -/
def cwArg (w : Word) : Byte := w.extractLsb' 0 8

/-- `ADDR = CW[6:0]` (R54). -/
def cwAddr (w : Word) : Addr := w.extractLsb' 0 7

/-- `CW[7]`, which must be 0 in BEGIN_TX and BEGIN_RX (R54). -/
def cwBit7 (w : Word) : Bool := w.getLsbD 7

/-- A command with an address operand: illegal when `CW[7] = 1` (R54, R60). -/
def decodeAddressed (w : Word) (i : Addr → Instr) : Instr :=
  if cwBit7 w then .illegal w else i (cwAddr w)

/-- A command without operand: illegal when `ARG` is not 0 (R57, R60). -/
def decodeBare (w : Word) (i : Instr) : Instr :=
  if cwArg w = 0 then i else .illegal w

/-- `decode(CW)` of R61: every word is one command or is rejected by name as `illegal`. -/
def decodeCommand (w : Word) : Instr :=
  if cwRsv w ≠ 0 then .illegal w
  else match (cwOp w).toNat with
    | 0x1 => decodeAddressed w .beginTx
    | 0x2 => .write (cwArg w)
    | 0x3 => decodeBare w .endTx
    | 0x4 => decodeAddressed w .beginRx
    | 0x5 => .requestBytes (cwArg w)
    | 0x6 => decodeBare w .available
    | 0x7 => decodeBare w .read
    | 0x8 => decodeBare w .endRx
    | 0x9 => decodeBare w .getStatus
    | 0xA => decodeBare w .getBtr
    | _ => .illegal w

/-- The five conditions of R60, as that rule lists them (not read off the decoder). -/
def isIllegalWord (w : Word) : Bool :=
  let op := (cwOp w).toNat
  decide (op = 0) || decide (0xB ≤ op) || decide (cwRsv w ≠ 0)
    || (decide (op = 0x1 ∨ op = 0x4) && cwBit7 w)
    || (decide (op = 0x3 ∨ op = 0x6 ∨ op = 0x7 ∨ op = 0x8 ∨ op = 0x9 ∨ op = 0xA) && decide (cwArg w ≠ 0))

/-! ### Status codes (R65, R66) -/

/-- `STATUS_MAP(s)`: the class of the first row that fits, else `other` (R65). -/
def classify : StatusMap → Byte → EventClass
  | [], _ => .other
  | r :: m, s => if s &&& r.mask = r.pattern then r.cls else classify m s

/-- The default map of R66 (general knowledge, not in the source; a parameter, D7). -/
def defaultStatusMap : StatusMap :=
  [ ⟨0xF8, 0x08, .start⟩, ⟨0xF8, 0x10, .repStart⟩, ⟨0xF8, 0x18, .slawAck⟩, ⟨0xF8, 0x20, .slawNack⟩,
    ⟨0xF8, 0x28, .dtxAck⟩, ⟨0xF8, 0x30, .dtxNack⟩, ⟨0xF8, 0x40, .slarAck⟩, ⟨0xF8, 0x48, .slarNack⟩,
    ⟨0xF8, 0x50, .drxAck⟩, ⟨0xF8, 0x58, .drxNack⟩ ]

/-- The row of the sequencer that handles a class (R91). -/
def eventRow (c : EventClass) (s : Byte) : Instr :=
  match c with
  | .start => .evStart s
  | .repStart => .evRepStart s
  | .slawAck => .evSlawAck s
  | .slarAck => .evSlarAck s
  | .slawNack => .evSlawNack s
  | .slarNack => .evSlarNack s
  | .dtxAck => .evDtxAck s
  | .dtxNack => .evDtxNack s
  | .drxAck => .evDrxAck s
  | .drxNack => .evDrxNack s
  | .other => .evOther s

/-- The sequencer row for a status code under a map (R65, R91). -/
def decodeEvent (m : StatusMap) (s : Byte) : Instr := eventRow (classify m s) s

/-- What an encoded instruction is read as: each command word, or the event. -/
def decodeEncoded (m : StatusMap) : Encoded → List Instr
  | .words ws => ws.map decodeCommand
  | .status s => [decodeEvent m s]

/-! ### The encoder (R61, R63) -/

/-- A command word from its fields; `RSV` is 0 (R52). -/
def commandWord (op : BitVec 4) (arg : Byte) : Word := (op.setWidth 16 <<< 12) ||| arg.setWidth 16

/-- The words of an instruction (R61, R63), or the status code of an event. -/
def encode : Instr → Encoded
  | .beginTx a => .words [commandWord 0x1 (a.setWidth 8)]
  | .write d => .words [commandWord 0x2 d]
  | .endTx => .words [commandWord 0x3 0]
  | .beginRx a => .words [commandWord 0x4 (a.setWidth 8)]
  | .requestBytes n => .words [commandWord 0x5 n]
  | .available => .words [commandWord 0x6 0]
  | .read => .words [commandWord 0x7 0]
  | .endRx => .words [commandWord 0x8 0]
  | .getStatus => .words [commandWord 0x9 0]
  | .getBtr => .words [commandWord 0xA 0]
  | .requestFrom a n =>
    .words [commandWord 0x4 (a.setWidth 8), commandWord 0x5 n, commandWord 0x8 0, commandWord 0x6 0]
  | .illegal w => .words [w]
  | .evStart s | .evRepStart s | .evSlawAck s | .evSlawNack s | .evDtxAck s | .evDtxNack s
  | .evSlarAck s | .evSlarNack s | .evDrxAck s | .evDrxNack s | .evOther s => .status s

/-- The instructions a decoder reads for one: REQUEST_FROM stands for four commands (R63), every other
instruction for itself. -/
def expand : Instr → List Instr
  | .requestFrom a n => [.beginRx a, .requestBytes n, .endRx, .available]
  | .beginTx a => [.beginTx a]
  | .write d => [.write d]
  | .endTx => [.endTx]
  | .beginRx a => [.beginRx a]
  | .requestBytes n => [.requestBytes n]
  | .available => [.available]
  | .read => [.read]
  | .endRx => [.endRx]
  | .getStatus => [.getStatus]
  | .getBtr => [.getBtr]
  | .illegal w => [.illegal w]
  | .evStart s => [.evStart s]
  | .evRepStart s => [.evRepStart s]
  | .evSlawAck s => [.evSlawAck s]
  | .evSlawNack s => [.evSlawNack s]
  | .evDtxAck s => [.evDtxAck s]
  | .evDtxNack s => [.evDtxNack s]
  | .evSlarAck s => [.evSlarAck s]
  | .evSlarNack s => [.evSlarNack s]
  | .evDrxAck s => [.evDrxAck s]
  | .evDrxNack s => [.evDrxNack s]
  | .evOther s => [.evOther s]

/-- The command words of an instruction; an event has none. -/
def commandWords (i : Instr) : List Word :=
  match encode i with
  | .words ws => ws
  | .status _ => []

/-- What the decoder reads from the bits `w` of a row of spec/opcode_table.json: a 16-bit command word, or an
8-bit status code under the default map. -/
def decodeTableWord (nbits w : Nat) : Option Instr :=
  if w < 2 ^ nbits then
    match nbits with
    | 16 => some (decodeCommand (BitVec.ofNat 16 w))
    | 8 => some (decodeEvent defaultStatusMap (BitVec.ofNat 8 w))
    | _ => none
  else none

end Sys2Proof
end

