-- ==== Sys2Proof/Machine/State.lean ====
section
/-!
DEFINITION. The state of the block, whole (10_state.md R17), the reasons a step can stop, and reset
(70_reset_and_hazards.md R125).
-/

namespace Sys2Proof.Machine

open Sys2Proof

/-- The tag of a ring buffer: whether its last push or pop was a consume or a produce (R19). -/
inductive LastOp where
  | read | write
deriving DecidableEq, Repr

/-- A ring buffer's storage: the slots that have been written, as (index, byte) cells with strictly rising
indexes; a slot that is not listed has not been written (R19, R37). -/
abbrev Memory := List Host.Cell

/-- The canonical form: indexes strictly rise. An unlisted slot reads as no byte at all, so no entry can equal what
an unlisted slot reads as. -/
abbrev Memory.wf (m : Memory) : Prop := m.Pairwise (fun x y => x.1 < y.1)

/-- A ring buffer (R19): `head` is the next slot to be written, `tail` the next to be read. -/
structure Ring where
  buf  : Memory
  head : Nat
  tail : Nat
  last : LastOp
deriving DecidableEq, Repr

/-- The agents (00_scope.md R3). -/
inductive Agent where
  | host | seq | eng
deriving DecidableEq, Repr

/-- The requests handed to the engine (30_encoding.md R64). -/
inductive Action where
  | start | stop | cont | ack | nack | release | clear
deriving DecidableEq, Repr

/-- `REQ`: the request the engine has not yet answered (R27); STOP and RELEASE never stand here. -/
inductive Req where
  | none | start | cont | ack | nack | clear
deriving DecidableEq, Repr

/-- `HPH`: the phase of a two-phase command (R31). -/
inductive Phase where
  | zero | one
deriving DecidableEq, Repr

/-- The fault kinds of 60_exceptions.md R112. -/
inductive FaultKind where
  | rbOverflow | rbUnderflow | requestCollision | btrOverflow | illegalCommand
deriving DecidableEq, Repr

/-- A fault record `(kind, agent, HPC)` (R29). -/
structure FaultRecord where
  kind  : FaultKind
  agent : Agent
  hpc   : Nat
deriving DecidableEq, Repr

/-- An entry of TRACE: `(agent, action, DATA)` (R33). -/
structure TraceEntry where
  agent  : Agent
  action : Action
  data   : Byte
deriving DecidableEq, Repr

/-- The state: S1-S20 of R17 in the table's order, then the parameters of R18 (which no step changes, log 4), then
the model's own `schedule` and `tick` (log 1). -/
structure State where
  tx       : Ring
  rx       : Ring
  btr      : Nat
  status   : Byte
  data     : Byte
  hwstat   : Byte
  int      : Bool
  req      : Req
  stopp    : Bool
  fault    : Option FaultRecord
  hpc      : Nat
  hph      : Phase
  out      : List Word
  trace    : List TraceEntry
  params   : Params
  schedule : List Move
  tick     : Nat
deriving DecidableEq, Repr

/-- Why the machine stops. -/
inductive Fault where
  /-- Raised by the step function alone, in a state whose FAULT is already set: no agent has a step there (R29, R113).
  Safe: the spec gives such a state no further step. The step that raises the fault itself is a next state (R113). -/
  | stopped (r : FaultRecord)
deriving DecidableEq, Repr

/-- Why an instruction has no meaning. -/
inductive Refusal where
  /-- Raised by exec alone, for an instruction whose meaning is not written yet. Safe. -/
  | notModelled (mnemonic : String)
deriving DecidableEq, Repr

/-- The parameters of the reset state: the defaults of R8, R9 and R66, and no program (log 4, log 5). -/
def defaultParams : Params :=
  { capacity := Config.defaultCapacity, btrWidth := Config.defaultBtrWidth,
    statusMap := defaultStatusMap, program := [] }

/-- A ring buffer after reset: empty, no slot written (R19). -/
def Ring.empty : Ring := { buf := [], head := 0, tail := 0, last := .read }

/-- The machine right after reset (R17, R125). DESIGN CHOICE (log 3): DATA and HWSTAT, which the spec leaves
unspecified, are 0x00. -/
def State.reset : State :=
  { tx := Ring.empty, rx := Ring.empty, btr := 0, status := 0x00, data := 0x00, hwstat := 0x00,
    int := false, req := .none, stopp := false, fault := none, hpc := 0, hph := .zero,
    out := [], trace := [], params := defaultParams, schedule := [], tick := 0 }

end Sys2Proof.Machine
end

