-- ==== Sys2Proof/Machine/Operands.lean ====
section
/-!
DEFINITION. Operand and result forms: the SLA byte (30_encoding.md R58), the count operand (R56), results (R59), the
numeric codes of requests (R64) and faults (60_exceptions.md R112).
-/

namespace Sys2Proof.Machine

open Sys2Proof

/-- The direction of a transaction (R58). -/
inductive Direction where
  | write | read
deriving DecidableEq, Repr

/-- `DIR`: 0 for the write direction, 1 for the read direction (R58). -/
def Direction.bit : Direction → Byte
  | .write => 0
  | .read => 1

/-- `SLA = (zext_8(ADDR) << 1) | DIR` (R58). -/
def slaByte (a : Addr) (d : Direction) : Byte := (a.setWidth 8 <<< 1) ||| d.bit

/-- `N = zext_W_BTR(CW[7:0])`: `W_BTR` is at least 8, so the count is the byte's value (R56). -/
def countOperand (n : Byte) : Nat := n.toNat

/-- `zext_16` of a byte result (R59). -/
def byteResult (b : Byte) : Word := b.setWidth 16

/-- `zext_16` of a count or of BTR (R59). -/
def countResult (n : Nat) : Word := BitVec.ofNat 16 n

/-- `BTR_MAX = 2^W_BTR - 1` (00_scope.md R9). -/
def btrMax (p : Params) : Nat := 2 ^ p.btrWidth - 1

/-- The 3-bit code of a request (R64). -/
def Action.code : Action → BitVec 3
  | .start => 1
  | .stop => 2
  | .cont => 3
  | .ack => 4
  | .nack => 5
  | .release => 6
  | .clear => 7

/-- The code of a fault kind (R112). -/
def FaultKind.code : FaultKind → Nat
  | .rbOverflow => 1
  | .rbUnderflow => 2
  | .requestCollision => 3
  | .btrOverflow => 4
  | .illegalCommand => 5

end Sys2Proof.Machine
end

