-- ==== Sys2Proof/Machine/Flags.lean ====
section
/-!
DEFINITION. The block's flags (10_state.md R35): the tags TX.last and RX.last and what they decide
(41_ring_buffer.md R67-R69), INT and STOPP, and the engine-busy test built from them (44_bus_engine.md R103).
-/

namespace Sys2Proof.Machine

open Sys2Proof

/-- `isEmpty` (R67). -/
def Ring.isEmpty (r : Ring) : Bool := decide (r.head = r.tail ∧ r.last = .read)

/-- `isFull` (R68). -/
def Ring.isFull (r : Ring) : Bool := decide (r.head = r.tail ∧ r.last = .write)

/-- `count`, with capacity `c` (R69). -/
def Ring.count (c : Nat) (r : Ring) : Nat :=
  if r.head = r.tail then (if r.last = .write then c else 0)
  else (r.head + c - r.tail) % c

/-- The engine still has a request to answer, an event not yet handled, or a STOP not yet completed (R103). -/
def State.engineBusy (s : State) : Bool := decide (s.req ≠ .none) || s.int || s.stopp

/-- What a request leaves in REQ (R64, R103): STOP and RELEASE leave nothing. -/
def Action.leavesReq : Action → Req
  | .start => .start
  | .cont => .cont
  | .ack => .ack
  | .nack => .nack
  | .clear => .clear
  | .stop | .release => .none

/-- SEQ's entry: STATUS takes the code as delivered, and INT is cleared (43_sequencer.md R91, 60_exceptions.md R117). -/
def State.enterEvent (s : State) (c : Byte) : State := { s with status := c, int := false }

end Sys2Proof.Machine
end

