-- ==== Sys2Proof/Machine/Ops.lean ====
section
/-!
DEFINITION. The named operations: ring-buffer storage and primitives (41_ring_buffer.md R67-R73), taking a fault
(60_exceptions.md R113), handing a request to the engine (44_bus_engine.md R103), completing a host command
(42_host_commands.md), SEQ's next action (43_sequencer.md R92).
-/

namespace Sys2Proof.Machine

open Sys2Proof

/-- The three outcomes of a step on this machine. -/
abbrev Result := Host.Outcome State Fault Refusal

/-! ### Storage -/

/-- The byte last written at an index, if any. -/
def Memory.read : Memory → Nat → Option Byte
  | [], _ => none
  | (k, v) :: m, i => if k = i then some v else Memory.read m i

/-- Write one byte at an index, keeping the indexes strictly rising. -/
def Memory.write : Memory → Nat → Byte → Memory
  | [], i, b => [(i, b)]
  | (k, v) :: m, i, b =>
    if i < k then (i, b) :: (k, v) :: m
    else if i = k then (i, b) :: m
    else (k, v) :: Memory.write m i b

/-- `RB.buf[i]`: the byte written there, or the free value of a slot nothing has written (K14, log 2). -/
def Ring.slot (which : Buffer) (r : Ring) (i : Nat) : Byte :=
  (r.buf.read i).getD (Config.unwrittenSlot which i)

/-! ### Ring-buffer primitives (`c` is the capacity) -/

/-- `pushBack(RB, b)` (R70). -/
def Ring.pushBack (c : Nat) (r : Ring) (b : Byte) : Except FaultKind Ring :=
  if r.isFull then .error .rbOverflow
  else .ok { buf := r.buf.write r.head b, head := (r.head + 1) % c, tail := r.tail, last := .write }

/-- `popFront(RB)` (R71): the byte, and the ring without it; the slot is not cleared. -/
def Ring.popFront (which : Buffer) (c : Nat) (r : Ring) : Except FaultKind (Byte × Ring) :=
  if r.isEmpty then .error .rbUnderflow
  else .ok (r.slot which r.tail, { r with tail := (r.tail + 1) % c, last := .read })

/-- `peekFront(RB)` (R72). -/
def Ring.peekFront (which : Buffer) (r : Ring) : Except FaultKind Byte :=
  if r.isEmpty then .error .rbUnderflow else .ok (r.slot which r.tail)

/-- The bytes a ring holds, oldest first: the `count` slots from `tail` on (R73 (c)). -/
def Ring.contents (which : Buffer) (c : Nat) (r : Ring) : List Byte :=
  (List.range (r.count c)).map fun k => r.slot which ((r.tail + k) % c)

/-- `pushBack` on TX. -/
def State.pushTx (s : State) (b : Byte) : Except FaultKind State :=
  match s.tx.pushBack s.params.capacity b with
  | .ok r => .ok { s with tx := r }
  | .error k => .error k

/-- `pushBack` on RX. -/
def State.pushRx (s : State) (b : Byte) : Except FaultKind State :=
  match s.rx.pushBack s.params.capacity b with
  | .ok r => .ok { s with rx := r }
  | .error k => .error k

/-- `popFront` on TX, the byte not used: every pop of TX drops the byte just sent (43_sequencer.md R94-R97). -/
def State.dropTx (s : State) : Except FaultKind State :=
  match s.tx.popFront .tx s.params.capacity with
  | .ok (_, r) => .ok { s with tx := r }
  | .error k => .error k

/-! ### Faults and steps -/

/-- `raise Fault(k)` (R113): the state before the step, plus FAULT. -/
def State.raise (s : State) (g : Agent) (k : FaultKind) : State :=
  { s with fault := some { kind := k, agent := g, hpc := s.hpc } }

/-- `atomic { ... }` of agent `g` (00_scope.md R15): the body's state, or, where the body raises a fault, the state
before the step plus FAULT; nothing else of the body lands (R113). -/
def atomic (g : Agent) (s : State) (body : Except FaultKind State) : Result :=
  match body with
  | .ok t => .next t
  | .error k => .next (s.raise g k)

/-- `wait until P` (42_host_commands.md R77): where `P` is false HOST has no step and nothing changes. -/
def waitUntil (p : Bool) (s : State) (act : Result) : Result :=
  if p then act else .next s

/-! ### The engine interface -/

/-- `issue(a)` by agent `g` (R103). -/
def State.issue (s : State) (g : Agent) (a : Action) : Except FaultKind State :=
  if s.engineBusy then .error .requestCollision
  else
    let t := { s with trace := s.trace ++ [{ agent := g, action := a, data := s.data }] }
    match a with
    | .stop => .ok { t with stopp := true }
    | .release => .ok t
    | .start | .cont | .ack | .nack | .clear => .ok { t with req := a.leavesReq }

/-! ### Host commands -/

/-- `complete`: `HPC <- HPC + 1; HPH <- 0` (42_host_commands.md). -/
def State.complete (s : State) : State := { s with hpc := s.hpc + 1, hph := .zero }

/-- `emit(v)`: append a result to OUT (10_state.md R32). -/
def State.emit (s : State) (v : Word) : State := { s with out := s.out ++ [v] }

/-- The shared step of BEGIN_TX and BEGIN_RX (R79, R82). -/
def beginTransaction (a : Addr) (d : Direction) (s : State) : Result :=
  waitUntil s.tx.isEmpty s <| atomic .host s <|
    match s.pushTx (slaByte a d) with
    | .error k => .error k
    | .ok t =>
      match t.issue .host .start with
      | .error k => .error k
      | .ok u => .ok u.complete

/-- Phase 0 of END_TX and END_RX, its guard held: issue STOP and go to phase 1 (R81, R86). -/
def issueStop (s : State) : Result :=
  atomic .host s <|
    match s.issue .host .stop with
    | .error k => .error k
    | .ok t => .ok { t with hph := .one }

/-- A command that only reports a value: emit it and complete (R84, R87, R88). -/
def observe (v : Word) (s : State) : Result := atomic .host s (.ok (s.emit v).complete)

/-- The host program with the words of `i` put in at HPC, which is what a pseudo-instruction standing there is
assembled to (30_encoding.md R63). -/
def State.expandHere (s : State) (i : Instr) : State :=
  { s with params :=
      { s.params with program := s.params.program.take s.hpc ++ commandWords i ++ s.params.program.drop s.hpc } }

/-! ### The sequencer -/

/-- `nextAction()` (R92). -/
def State.nextAction (s : State) : Except FaultKind State :=
  if s.tx.isEmpty then
    if s.btr > 0 then
      if s.btr = 1 then s.issue .seq .nack else s.issue .seq .cont
    else s.issue .seq .release
  else
    match s.tx.peekFront .tx with
    | .error k => .error k
    | .ok b => ({ s with data := b }).issue .seq .cont

/-- A START or repeated START was sent (R93). -/
def startRow (c : Byte) (s : State) : Result := atomic .seq s (s.enterEvent c).nextAction

/-- A byte of TX was sent, and ACKed or NACKed: it leaves TX, then the next action follows (R94, R95, R97). -/
def sentRow (c : Byte) (s : State) : Result :=
  atomic .seq s <|
    match (s.enterEvent c).dropTx with
    | .error k => .error k
    | .ok t => t.nextAction

/-- SLA+R was sent and NACKed: as `sentRow`, and the pending reception is abandoned (R96). -/
def readRefusedRow (c : Byte) (s : State) : Result :=
  atomic .seq s <|
    match (s.enterEvent c).dropTx with
    | .error k => .error k
    | .ok t => ({ t with btr := 0 }).nextAction

/-- The first half of R98: a received byte that is expected goes into RX and is counted off. -/
def State.storeReceived (s : State) : Except FaultKind State :=
  if s.btr > 0 then
    match s.pushRx s.data with
    | .error k => .error k
    | .ok t => .ok { t with btr := t.btr - 1 }
  else .ok s

/-- The second half of R98: which acknowledgement the next byte gets, or RELEASE. -/
def State.acknowledge (s : State) : Except FaultKind State :=
  if s.btr > 1 then s.issue .seq .ack
  else if s.btr = 1 then s.issue .seq .nack
  else s.issue .seq .release

/-- A data byte was received (R98). -/
def receivedRow (c : Byte) (s : State) : Result :=
  atomic .seq s <|
    match (s.enterEvent c).storeReceived with
    | .error k => .error k
    | .ok t => t.acknowledge

/-- An unrecognised status (R99). -/
def otherRow (c : Byte) (s : State) : Result :=
  atomic .seq s ((s.enterEvent c).issue .seq .clear)

end Sys2Proof.Machine
end

