-- ==== Sys2Proof/Machine/HostCommands.lean ====
section
/-!
DEFINITION. The meanings of the host commands (42_host_commands.md R79-R89), of the pseudo-instruction
(30_encoding.md R63) and of an illegal word (R60): each is one HOST step, of a HOST that has one (R76).
-/

namespace Sys2Proof.Machine

open Sys2Proof

/-- BEGIN_TX (R79). -/
def execBeginTx (a : Addr) (s : State) : Result := beginTransaction a .write s

/-- WRITE (R80): the byte is queued, and when TX was empty it is also loaded and sent (the kick). -/
def execWrite (b : Byte) (s : State) : Result :=
  waitUntil (!s.tx.isFull) s <| atomic .host s <|
    match s.pushTx b with
    | .error k => .error k
    | .ok t =>
      if s.tx.isEmpty then
        match ({ t with data := b }).issue .host .cont with
        | .error k => .error k
        | .ok u => .ok u.complete
      else .ok t.complete

/-- END_TX (R81). -/
def execEndTx (s : State) : Result :=
  match s.hph with
  | .zero => waitUntil s.tx.isEmpty s (issueStop s)
  | .one => waitUntil (!s.stopp) s (observe (byteResult s.status) s)

/-- BEGIN_RX (R82). -/
def execBeginRx (a : Addr) (s : State) : Result := beginTransaction a .read s

/-- REQUEST_BYTES (R83). -/
def execRequestBytes (n : Byte) (s : State) : Result :=
  atomic .host s <|
    if s.btr + countOperand n > btrMax s.params then .error .btrOverflow
    else .ok { s with btr := s.btr + countOperand n }.complete

/-- AVAILABLE (R84). -/
def execAvailable (s : State) : Result := observe (countResult (s.rx.count s.params.capacity)) s

/-- READ (R85): the front byte of RX, or 0 when RX is empty. -/
def execRead (s : State) : Result :=
  atomic .host s <|
    if s.rx.isEmpty then .ok (s.emit 0x0000).complete
    else
      match s.rx.popFront .rx s.params.capacity with
      | .error k => .error k
      | .ok (b, r) => .ok (({ s with rx := r }).emit (byteResult b)).complete

/-- END_RX (R86). -/
def execEndRx (s : State) : Result :=
  match s.hph with
  | .zero => waitUntil (decide (s.btr = 0)) s (issueStop s)
  | .one => waitUntil (!s.stopp) s (atomic .host s (.ok s.complete))

/-- GET_STATUS (R87). -/
def execGetStatus (s : State) : Result := observe (byteResult s.status) s

/-- GET_BTR (R88). -/
def execGetBtr (s : State) : Result := observe (countResult s.btr) s

/-- REQUEST_FROM (R63, R89): it is its four words, put where it stands, and HOST's step there is the step of the
first of them. DESIGN CHOICE (log 8): no word decodes to it, so no step of a run reaches this. -/
def execRequestFrom (a : Addr) (n : Byte) (s : State) : Result :=
  beginTransaction a .read (s.expandHere (.requestFrom a n))

/-- A word that is no command (R60, R76): the fault ILLEGAL_COMMAND and no other change. The word itself is not
recorded (R112). -/
def execIllegal (_cw : Word) (s : State) : Result := atomic .host s (.error .illegalCommand)

end Sys2Proof.Machine
end

