-- ==== Sys2Proof/Machine/Sequencer.lean ====
section
/-!
DEFINITION. The meanings of the event rows (43_sequencer.md R93-R99): each is one SEQ step, entered with the status
code `c` that HWSTAT holds (R91).
-/

namespace Sys2Proof.Machine

open Sys2Proof

/-- EV_START (R93). -/
def execEvStart (c : Byte) (s : State) : Result := startRow c s

/-- EV_REP_START (R93). -/
def execEvRepStart (c : Byte) (s : State) : Result := startRow c s

/-- EV_SLAW_ACK (R94). -/
def execEvSlawAck (c : Byte) (s : State) : Result := sentRow c s

/-- EV_SLAW_NACK (R95): not an abort; the byte was sent all the same. -/
def execEvSlawNack (c : Byte) (s : State) : Result := sentRow c s

/-- EV_DTX_ACK (R97). -/
def execEvDtxAck (c : Byte) (s : State) : Result := sentRow c s

/-- EV_DTX_NACK (R97): handled exactly like an ACK. -/
def execEvDtxNack (c : Byte) (s : State) : Result := sentRow c s

/-- EV_SLAR_ACK (R94). -/
def execEvSlarAck (c : Byte) (s : State) : Result := sentRow c s

/-- EV_SLAR_NACK (R96). -/
def execEvSlarNack (c : Byte) (s : State) : Result := readRefusedRow c s

/-- EV_DRX_ACK (R98). -/
def execEvDrxAck (c : Byte) (s : State) : Result := receivedRow c s

/-- EV_DRX_NACK (R98): which acknowledgement was returned does not change the handling. -/
def execEvDrxNack (c : Byte) (s : State) : Result := receivedRow c s

/-- EV_OTHER (R99). -/
def execEvOther (c : Byte) (s : State) : Result := otherRow c s

end Sys2Proof.Machine
end

