-- ==== Sys2Proof/Machine/Dispatch.lean ====
section
/-! DEFINITION. One arm for each constructor of Instr, each a direct call of its meaning. -/

namespace Sys2Proof.Machine

open Sys2Proof

def exec (i : Instr) (s : State) : Host.Outcome State Fault Refusal :=
  match i with
  | .beginTx a => Sys2Proof.Machine.execBeginTx a s
  | .write b => Sys2Proof.Machine.execWrite b s
  | .endTx => Sys2Proof.Machine.execEndTx s
  | .beginRx a => Sys2Proof.Machine.execBeginRx a s
  | .requestBytes n => Sys2Proof.Machine.execRequestBytes n s
  | .available => Sys2Proof.Machine.execAvailable s
  | .read => Sys2Proof.Machine.execRead s
  | .endRx => Sys2Proof.Machine.execEndRx s
  | .getStatus => Sys2Proof.Machine.execGetStatus s
  | .getBtr => Sys2Proof.Machine.execGetBtr s
  | .requestFrom a n => Sys2Proof.Machine.execRequestFrom a n s
  | .illegal cw => Sys2Proof.Machine.execIllegal cw s
  | .evStart c => Sys2Proof.Machine.execEvStart c s
  | .evRepStart c => Sys2Proof.Machine.execEvRepStart c s
  | .evSlawAck c => Sys2Proof.Machine.execEvSlawAck c s
  | .evSlawNack c => Sys2Proof.Machine.execEvSlawNack c s
  | .evDtxAck c => Sys2Proof.Machine.execEvDtxAck c s
  | .evDtxNack c => Sys2Proof.Machine.execEvDtxNack c s
  | .evSlarAck c => Sys2Proof.Machine.execEvSlarAck c s
  | .evSlarNack c => Sys2Proof.Machine.execEvSlarNack c s
  | .evDrxAck c => Sys2Proof.Machine.execEvDrxAck c s
  | .evDrxNack c => Sys2Proof.Machine.execEvDrxNack c s
  | .evOther c => Sys2Proof.Machine.execEvOther c s

end Sys2Proof.Machine
end

