-- ==== Sys2Proof/Machine/Engine.lean ====
section
/-!
DEFINITION. The steps of the bus engine ENG (44_bus_engine.md R104-R107). They are moves, not instructions. Each is
given with the condition that enables it; FAULT is tested by the step.
-/

namespace Sys2Proof.Machine

open Sys2Proof

/-- ENG may answer: a request stands in REQ and no event is pending (R104). -/
def State.answerEnabled (s : State) : Bool := decide (s.req ≠ .none) && !s.int

/-- ENG may drop the request: REQ = CLEAR (R105). -/
def State.dropEnabled (s : State) : Bool := decide (s.req = .clear)

/-- The classes whose events deliver a byte in DATA (R104). -/
def isReceived : EventClass → Bool
  | .drxAck | .drxNack => true
  | .start | .repStart | .slawAck | .slarAck | .slawNack | .slarNack | .dtxAck | .dtxNack | .other => false

/-- ENG answers with status code `c` and byte `d` (R104). -/
def State.engineAnswer (s : State) (c d : Byte) : State :=
  { s with
    hwstat := c
    data := if isReceived (classify s.params.statusMap c) then d else s.data
    req := .none
    int := true }

/-- ENG drops a CLEAR and raises no event (R105). -/
def State.engineDrop (s : State) : State := { s with req := .none }

/-- ENG completes a STOP: no event, no status (R106). -/
def State.engineStop (s : State) : State := { s with stopp := false }

end Sys2Proof.Machine
end

