-- ==== Sys2Proof/Machine/Agents.lean ====
section
/-!
DEFINITION. Which agent has a step and what its step is (00_scope.md R3, 42_host_commands.md R76, 43_sequencer.md R90,
44_bus_engine.md R104-R106); where the next move comes from (20_memory.md R46); when a run has ended or is stuck
(70_reset_and_hazards.md R128).
-/

namespace Sys2Proof.Machine

open Sys2Proof

/-- The command word HOST is at: `program[HPC]` (R76); none when HOST has finished. -/
def State.fetchCommand (s : State) : Option Word := s.params.program[s.hpc]?

/-- The guard of the current phase of a command (R77-R88); a command that does not wait has guard true. -/
def hostGuard (i : Instr) (s : State) : Bool :=
  match i with
  | .beginTx _ | .beginRx _ | .requestFrom _ _ => s.tx.isEmpty
  | .write _ => !s.tx.isFull
  | .endTx => match s.hph with
    | .zero => s.tx.isEmpty
    | .one => !s.stopp
  | .endRx => match s.hph with
    | .zero => decide (s.btr = 0)
    | .one => !s.stopp
  | .requestBytes _ | .available | .read | .getStatus | .getBtr | .illegal _ => true
  | .evStart _ | .evRepStart _ | .evSlawAck _ | .evSlawNack _ | .evDtxAck _ | .evDtxNack _
  | .evSlarAck _ | .evSlarNack _ | .evDrxAck _ | .evDrxNack _ | .evOther _ => true

/-- HOST has a step, FAULT apart: it has not finished and its guard holds (R76, R77). -/
def State.hostEnabled (s : State) : Bool :=
  match s.fetchCommand with
  | some w => hostGuard (decodeCommand w) s
  | none => false

/-- The move's agent has that step (R76, R90, R104, R105, R106); none has one while FAULT is set (R29). -/
def State.enabled (s : State) (mv : Move) : Bool :=
  s.fault.isNone &&
    match mv with
    | .host => s.hostEnabled
    | .seq => s.int
    | .engAnswer _ _ => s.answerEnabled
    | .engDrop => s.dropEnabled
    | .engStop => s.stopp

/-- HOST's move: decode `program[HPC]` and run it (R76). A HOST that has finished changes nothing. -/
def hostMove (s : State) : Result :=
  match s.fetchCommand with
  | some w => exec (decodeCommand w) s
  | none => .next s

/-- SEQ's move: with INT = 1, run the row of the class of HWSTAT (R91); otherwise SEQ has no step. -/
def seqMove (s : State) : Result :=
  if s.int then exec (decodeEvent s.params.statusMap s.hwstat) s else .next s

/-- ENG's moves. -/
def engAnswerMove (c d : Byte) (s : State) : Result :=
  if s.answerEnabled then .next (s.engineAnswer c d) else .next s

def engDropMove (s : State) : Result :=
  if s.dropEnabled then .next s.engineDrop else .next s

def engStopMove (s : State) : Result :=
  if s.stopp then .next s.engineStop else .next s

/-- One move of one agent. A move whose agent has no step there changes nothing: an agent that waits, waits (R77,
log 7). With FAULT set the machine has stopped (R29, R113, log 6). -/
def stepBy (mv : Move) (s : State) : Result :=
  match s.fault with
  | some r => .fault (.stopped r)
  | none =>
    match mv with
    | .host => hostMove s
    | .seq => seqMove s
    | .engAnswer c d => engAnswerMove c d s
    | .engDrop => engDropMove s
    | .engStop => engStopMove s

/-- The next move: the head of the schedule, or, where the schedule is empty, the next free move (log 1). -/
def State.nextMove (s : State) : Move :=
  match s.schedule with
  | mv :: _ => mv
  | [] => Config.freeMove s.tick

/-- The state with its next move taken off the schedule (or the free-move counter advanced). -/
def State.takeMove (s : State) : State :=
  match s.schedule with
  | _ :: rest => { s with schedule := rest }
  | [] => { s with tick := s.tick + 1 }

/-- `k` moves in the order given, stopping at the first outcome that is no next state. -/
def runMoves : List Move → State → Result
  | [], s => .next s
  | mv :: rest, s =>
    match stepBy mv s with
    | .next t => runMoves rest t
    | .fault r => .fault r
    | .refused r => .refused r

/-- A final state: the run has ended (R128). -/
def State.final (s : State) : Bool :=
  s.fault.isNone && decide (s.hpc = s.params.program.length) && !s.int && decide (s.req = .none) && !s.stopp

/-- No agent has a step. -/
def State.noStep (s : State) : Bool :=
  !(s.enabled .host || s.enabled .seq || s.enabled (.engAnswer 0 0) || s.enabled .engDrop || s.enabled .engStop)

/-- A stuck state: no agent has a step, and it is not final (R128). -/
def State.stuck (s : State) : Bool := s.noStep && !s.final

/-- The state with the command word `w` at HPC and HOST to move next, FAULT clear so that HOST has a step. -/
def State.placeCommand (s : State) (w : Word) : State :=
  let words := s.params.program.take s.hpc ++ List.replicate (s.hpc - s.params.program.length) 0
    ++ [w] ++ s.params.program.drop (s.hpc + 1)
  { s with params := { s.params with program := words }, fault := none, schedule := .host :: s.schedule }

/-- The state with the event of code `c` pending and SEQ to move next, FAULT clear so that SEQ has a step. -/
def State.placeEvent (s : State) (c : Byte) : State :=
  { s with hwstat := c, int := true, fault := none, schedule := .seq :: s.schedule }

end Sys2Proof.Machine
end

