-- ==== Sys2Proof/Machine/Step.lean ====
section
/-!
DEFINITION. One step of the machine: the next move of the schedule, made by its agent (20_memory.md R46,
60_exceptions.md R116); and the load of one instruction where a step takes its next.
-/

namespace Sys2Proof.Machine

open Sys2Proof

/-- One step: the next move is taken and its agent's step is made. -/
def step (s : State) : Host.Outcome State Fault Refusal := stepBy s.nextMove s.takeMove

/-- The state in which the very next step runs the instruction whose bits are `w`: a 16-bit command word stands at HPC
with HOST to move, or an 8-bit status code is delivered with SEQ to move (log 5). No row has another width. -/
def State.withFetchWord (s : State) (nbits w : Nat) : State :=
  match nbits with
  | 16 => s.placeCommand (BitVec.ofNat 16 w)
  | 8 => s.placeEvent (BitVec.ofNat 8 w)
  | _ => s

end Sys2Proof.Machine
end

