-- ==== Sys2Proof/Machine/Assembler.lean ====
section
/-!
DEFINITION. The assembler syntax of a host program (30_encoding.md R62, R63): one command a line, a mnemonic or the
source's function name, then its operand as a decimal or 0x hexadecimal number.
-/

namespace Sys2Proof.Machine

open Sys2Proof

/-- The tokens of a line: runs of characters between blanks; a comma is a token of its own (R63). -/
def tokens : List Char → List Char → List (List Char)
  | [], cur => if cur = [] then [] else [cur.reverse]
  | c :: cs, cur =>
    let done := if cur = [] then [] else [cur.reverse]
    if c = ' ' then done ++ tokens cs []
    else if c = ',' then done ++ [[',']] ++ tokens cs []
    else tokens cs (c :: cur)

/-- A digit below 16; letters of either case (DEDUCED, log 11). -/
def digit (c : Char) : Option Nat :=
  let n := c.toNat
  if 48 ≤ n ∧ n ≤ 57 then some (n - 48)
  else if 65 ≤ n ∧ n ≤ 70 then some (n - 55)
  else if 97 ≤ n ∧ n ≤ 102 then some (n - 87)
  else none

/-- The value of a run of digits in a base, after the value so far. -/
def digits (base acc : Nat) : List Char → Option Nat
  | [] => some acc
  | c :: cs =>
    match digit c with
    | some d => if d < base then digits base (acc * base + d) cs else none
    | none => none

/-- A decimal or 0x hexadecimal number (R62). -/
def number : List Char → Option Nat
  | [] => none
  | '0' :: 'x' :: [] => none
  | '0' :: 'x' :: cs => digits 16 0 cs
  | cs => digits 10 0 cs

/-- A 7-bit address operand; out of range is refused (R62). -/
def addrOperand (t : List Char) : Option Addr :=
  match number t with
  | some n => if n < 128 then some (BitVec.ofNat 7 n) else none
  | none => none

/-- A byte or count operand; out of range is refused (R62). -/
def byteOperand (t : List Char) : Option Byte :=
  match number t with
  | some n => if n < 256 then some (BitVec.ofNat 8 n) else none
  | none => none

/-- A token is the mnemonic or its alias, the source's function name (R62). -/
def named (t : List Char) (mnemonic sourceName : String) : Bool :=
  decide (t = mnemonic.toList) || decide (t = sourceName.toList)

/-- One line of a host program (R62), or the pseudo-instruction (R63). -/
def assembleLine (line : List Char) : Option Instr :=
  match tokens line [] with
  | [m] =>
    if named m "END_TX" "endTransmission" then some .endTx
    else if named m "AVAILABLE" "available" then some .available
    else if named m "READ" "read" then some .read
    else if named m "END_RX" "endReception" then some .endRx
    else if named m "GET_STATUS" "getStatus" then some .getStatus
    else if named m "GET_BTR" "getBytesToReceive" then some .getBtr
    else none
  | [m, x] =>
    if named m "BEGIN_TX" "beginTransmission" then (addrOperand x).map .beginTx
    else if named m "WRITE" "write" then (byteOperand x).map .write
    else if named m "BEGIN_RX" "beginReception" then (addrOperand x).map .beginRx
    else if named m "REQUEST_BYTES" "requestBytes" then (byteOperand x).map .requestBytes
    else none
  | [m, a, [','], n] =>
    if m = "REQUEST_FROM".toList then
      match addrOperand a, byteOperand n with
      | some a, some n => some (.requestFrom a n)
      | _, _ => none
    else none
  | _ => none

/-- The command words of a program text, or none where a line is refused. -/
def assemble : List (List Char) → Option (List Word)
  | [] => some []
  | line :: rest =>
    match assembleLine line, assemble rest with
    | some i, some ws => some (commandWords i ++ ws)
    | _, _ => none

end Sys2Proof.Machine
end

