-- ==== Sys2Proof/Machine/Premises.lean ====
section
/-!
DEFINITION. The named premises of 44_bus_engine.md: a conformant engine (R109, general knowledge) and fairness (R108). They
are assumptions a claim may take, never part of the machine.
-/

namespace Sys2Proof.Machine

open Sys2Proof

/-- A state right after reset, of any parameters (R125): every element at its reset value; the two registers the spec leaves
unspecified may hold any value (K15), and the ring contents are free (log 2). -/
def State.atReset (s : State) : Prop :=
  s = { State.reset with
        data := s.data
        hwstat := s.hwstat
        params := s.params
        schedule := s.schedule
        tick := s.tick }

/-- The engine mode `m` of R109. -/
inductive EngineMode where
  | idle | addr | mt | mr | held
deriving DecidableEq, Repr

/-- The engine mode at reset (R109, 70_reset_and_hazards.md R126). -/
def EngineMode.reset : EngineMode := .idle

/-- The table of R109: the mode after an answer of class `cls` to request `q` in mode `m`, with `bit0 = DATA[0]` when the
engine answers; none where the table does not admit the class. -/
def conformantNext (q : Req) (m : EngineMode) (bit0 : Bool) (cls : EventClass) : Option EngineMode :=
  match q, m, cls with
  | .start, .idle, .start => some .addr
  | .start, .addr, .repStart | .start, .mt, .repStart | .start, .mr, .repStart | .start, .held, .repStart => some .addr
  | .cont, .addr, .slawAck | .cont, .addr, .slawNack => if bit0 then none else some .mt
  | .cont, .addr, .slarAck => if bit0 then some .mr else none
  | .cont, .addr, .slarNack => if bit0 then some .held else none
  | .cont, .mt, .dtxAck | .cont, .mt, .dtxNack => some .mt
  | .cont, .mr, .drxAck | .ack, .mr, .drxAck => some .mr
  | .nack, .mr, .drxNack => some .held
  | _, _, _ => none

/-- What `ENG_CONFORMANT` asks of the moves made from a state with the engine in mode `m` (R109): every answer that is a
step is one the table admits; a completed STOP returns the mode to IDLE; nothing else changes it. A run from reset is
judged from `EngineMode.reset` (`engConformant`). -/
def conformantRun : EngineMode → State → List Move → Bool
  | _, _, [] => true
  | m, s, mv :: rest =>
    match stepBy mv s with
    | .next t =>
      match mv with
      | .engAnswer c _ =>
        if s.answerEnabled then
          match conformantNext s.req m (s.data.getLsbD 0) (classify s.params.statusMap c) with
          | some m' => conformantRun m' t rest
          | none => false
        else conformantRun m t rest
      | .engStop => conformantRun (if s.stopp then .idle else m) t rest
      | .host | .seq | .engDrop => conformantRun m t rest
    | .fault _ => true
    | .refused _ => true

/-- `ENG_CONFORMANT` (R109) of a run from reset: the moves `mvs` made from the reset state `s`, with the engine in its mode at
reset. -/
def engConformant (s : State) (mvs : List Move) : Prop :=
  s.atReset ∧ conformantRun EngineMode.reset s mvs = true

/-- An infinite run: each state follows from the one before it by the move made there (R46). -/
structure InfiniteRun where
  state : Nat → State
  move  : Nat → Move
  follows : ∀ n, stepBy (move n) (state n) = .next (state (n + 1))

/-- The first `n` moves of an infinite run. -/
def InfiniteRun.moves (r : InfiniteRun) (n : Nat) : List Move := (List.range n).map r.move

/-- `ENG_CONFORMANT` of an infinite run (R109): it starts at reset and each of its beginnings is conformant. -/
def InfiniteRun.engConformant (r : InfiniteRun) : Prop := ∀ n, Machine.engConformant (r.state 0) (r.moves n)

/-- `ENG_FAIR` (R108): no request stays unanswered for ever, and no STOP stays pending for ever. -/
def InfiniteRun.engFair (r : InfiniteRun) : Prop :=
  (∀ n, ∃ k, n ≤ k ∧ (r.state k).answerEnabled = false) ∧ (∀ n, ∃ k, n ≤ k ∧ (r.state k).stopp = false)

/-- Weak fairness of HOST and of SEQ (R108): one that has a step from some point on takes one. -/
def InfiniteRun.hostFair (r : InfiniteRun) : Prop :=
  ∀ n, (∀ k, n ≤ k → (r.state k).enabled .host = true) → ∃ k, n ≤ k ∧ r.move k = .host

def InfiniteRun.seqFair (r : InfiniteRun) : Prop :=
  ∀ n, (∀ k, n ≤ k → (r.state k).enabled .seq = true) → ∃ k, n ≤ k ∧ r.move k = .seq

end Sys2Proof.Machine
end

