-- ==== Sys2Proof/Safety.lean ====
section
/-!
DEFINITION. What every state of a run satisfies, in the terms statements use: well-formed ring buffers (20_memory.md R42,
41_ring_buffer.md R73), a counter within its width (10_state.md R22), at most one thing outstanding at the engine
(60_exceptions.md R115), a legal host position (10_state.md R30, R31).
-/

namespace Sys2Proof.Machine

open Sys2Proof

/-- A ring buffer of capacity `c`: canonical storage inside 0..c-1, indexes in range (R42), and every slot that
holds a queued byte has been written (R19, R73 (c)). -/
structure Ring.Inv (c : Nat) (r : Ring) : Prop where
  canonical : r.buf.wf
  inside    : ∀ x ∈ r.buf, x.1 < c
  headLt    : r.head < c
  tailLt    : r.tail < c
  written   : ∀ k, k < r.count c → (r.buf.read ((r.tail + k) % c)).isSome = true

/-- HPH is 1 only inside an END_TX or END_RX (R31). -/
def State.midCommand (s : State) : Prop :=
  ∃ w, s.fetchCommand = some w ∧ (decodeCommand w = .endTx ∨ decodeCommand w = .endRx)

/-- The invariant of the machine. -/
structure State.Inv (s : State) : Prop where
  params   : s.params.wf
  tx       : s.tx.Inv s.params.capacity
  rx       : s.rx.Inv s.params.capacity
  btr      : s.btr ≤ btrMax s.params
  /-- a request outstanding excludes a pending event (R104, R115) -/
  reqInt   : s.req ≠ .none → s.int = false
  /-- a pending STOP excludes a request and an event -/
  stopIdle : s.stopp = true → s.req = .none ∧ s.int = false
  /-- a pending STOP belongs to an END_TX or END_RX in phase 1 -/
  stopHph  : s.stopp = true → s.hph = .one
  hphMid   : s.hph = .one → s.midCommand
  hpcLe    : s.hpc ≤ s.params.program.length

end Sys2Proof.Machine
end

