-- ==== Sys2Proof/WellFormed.lean ====
section
/-!
DEFINITION. Which instructions are well-formed under a status map. Operand ranges (30_encoding.md R54-R56, R62)
are carried by the operand types, so an address above 127 or a byte above 255 is no term at all (K7).
-/

namespace Sys2Proof

/-- An `illegal` instruction carries a word that R60 calls illegal, and an event carries a code of its own class
(R65); commands are well-formed by their types. -/
def Instr.wellFormed (m : StatusMap) : Instr → Bool
  | .beginTx _ | .write _ | .endTx | .beginRx _ | .requestBytes _ | .available | .read | .endRx
  | .getStatus | .getBtr | .requestFrom _ _ => true
  | .illegal w => isIllegalWord w
  | .evStart s => decide (classify m s = .start)
  | .evRepStart s => decide (classify m s = .repStart)
  | .evSlawAck s => decide (classify m s = .slawAck)
  | .evSlawNack s => decide (classify m s = .slawNack)
  | .evDtxAck s => decide (classify m s = .dtxAck)
  | .evDtxNack s => decide (classify m s = .dtxNack)
  | .evSlarAck s => decide (classify m s = .slarAck)
  | .evSlarNack s => decide (classify m s = .slarNack)
  | .evDrxAck s => decide (classify m s = .drxAck)
  | .evDrxNack s => decide (classify m s = .drxNack)
  | .evOther s => decide (classify m s = .other)

end Sys2Proof
end

