-- ==== Sys2Proof/Certificates/Slice0/Obligations.lean ====
section
/-!
DEFINITION. The statements for the provers, after the few functions they are written with. Every state is a state of any
parameters (C, W_BTR, STATUS_MAP, program), since these stand in the state (log 4).
-/

namespace Sys2Proof.Spec

open Sys2Proof Sys2Proof.Machine

/-- The engine takes a request: nothing outstanding (44_bus_engine.md R103, the negation of its fault condition). -/
def Idle (s : State) : Prop := s.req = .none ∧ s.int = false ∧ s.stopp = false

/-- TX or RX is empty, written out (41_ring_buffer.md R67). -/
def RingEmpty (r : Ring) : Prop := r.head = r.tail ∧ r.last = .read

/-- TX or RX is full, written out (R68). -/
def RingFull (r : Ring) : Prop := r.head = r.tail ∧ r.last = .write

/-- A ring of capacity `c` after a push of `b` (R70). -/
def pushed (c : Nat) (r : Ring) (b : Byte) : Ring :=
  { buf := r.buf.write r.head b, head := (r.head + 1) % c, tail := r.tail, last := .write }

/-- A ring of capacity `c` after a pop (R71). -/
def popped (c : Nat) (r : Ring) : Ring :=
  { buf := r.buf, head := r.head, tail := (r.tail + 1) % c, last := .read }

/-- A step of agent `g` that raised fault `k`: the state before it, plus FAULT (60_exceptions.md R113). -/
def faulted (s : State) (g : Agent) (k : FaultKind) : State := { s with fault := some ⟨k, g, s.hpc⟩ }

/-- The request R92 chooses, from whether TX is empty and from BTR. -/
def chosenRequest (txEmpty : Bool) (btr : Nat) : Action :=
  if txEmpty = false then .cont else if btr = 0 then .release else if btr = 1 then .nack else .cont

/-- What REQ holds after SEQ's request (R64). -/
def reqAfter (a : Action) : Req :=
  match a with
  | .start => .start
  | .cont => .cont
  | .ack => .ack
  | .nack => .nack
  | .clear => .clear
  | .stop | .release => .none

/-- The state after R92 from a state whose engine takes a request: the front byte of a TX that is not empty goes to
DATA, the request of `chosenRequest` is recorded with that DATA and handed over. -/
def acted (s : State) : State :=
  let e := decide (s.tx.head = s.tx.tail ∧ s.tx.last = .read)
  let d := if e then s.data else s.tx.slot .tx s.tx.tail
  let a := chosenRequest e s.btr
  { s with data := d, trace := s.trace ++ [⟨.seq, a, d⟩], req := reqAfter a }

/-- The state after a row that consumes the byte sent (R94-R97), with BTR set to `btr`. -/
def sent (c : Byte) (btr : Nat) (s : State) : State :=
  acted { s with status := c, int := false, tx := popped s.params.capacity s.tx, btr := btr }

/-- The request R98 chooses, from BTR after the byte is counted off. -/
def nextAcknowledge (btr : Nat) : Action := if btr = 0 then .release else if btr = 1 then .nack else .ack

/-- The state after R98: with BTR above 0 the byte in DATA is pushed into RX and counted off. -/
def received (c : Byte) (s : State) : State :=
  let a := nextAcknowledge (s.btr - 1)
  { s with
    status := c
    int := false
    rx := if s.btr = 0 then s.rx else pushed s.params.capacity s.rx s.data
    btr := s.btr - 1
    trace := s.trace ++ [⟨.seq, a, s.data⟩]
    req := reqAfter a }

/-- The state after a host command that is one step without result (`complete`). -/
def completed (s : State) : State := { s with hpc := s.hpc + 1, hph := .zero }

/-- The state after a host command that gives the result `v` and changes nothing else. -/
def reported (v : Word) (s : State) : State := { s with out := s.out ++ [v], hpc := s.hpc + 1, hph := .zero }

/-- The state after HOST's STOP of END_TX or END_RX, phase 0. -/
def stopIssued (s : State) : State :=
  { s with trace := s.trace ++ [⟨.host, .stop, s.data⟩], stopp := true, hph := .one }

/-- The state after BEGIN_TX or BEGIN_RX with the SLA byte `b`. -/
def begun (b : Byte) (s : State) : State :=
  { s with
    tx := pushed s.params.capacity s.tx b
    trace := s.trace ++ [⟨.host, .start, s.data⟩]
    req := .start
    hpc := s.hpc + 1
    hph := .zero }

/-- The three cases of BEGIN_TX and BEGIN_RX with the SLA byte `b` (42_host_commands.md R79, R82): `r` is the outcome
from `s`. -/
def BeginCases (b : Byte) (s : State) (r : Result) : Prop :=
  (¬ RingEmpty s.tx → r = .next s) ∧
  (RingEmpty s.tx → ¬ Idle s → r = .next (faulted s .host .requestCollision)) ∧
  (RingEmpty s.tx → Idle s → r = .next (begun b s))

/-- The cases of a row that consumes the byte sent, with BTR set to `btr` (43_sequencer.md R94-R97). -/
def SentCases (c : Byte) (btr : Nat) (s : State) (r : Result) : Prop :=
  (RingEmpty s.tx → r = .next (faulted s .seq .rbUnderflow)) ∧
  (¬ RingEmpty s.tx → s.req = .none → s.stopp = false → r = .next (sent c btr s)) ∧
  (¬ RingEmpty s.tx → ¬ (s.req = .none ∧ s.stopp = false) → r = .next (faulted s .seq .requestCollision))

/-- The cases of the data-received rows (R98). -/
def ReceivedCases (c : Byte) (s : State) (r : Result) : Prop :=
  (s.btr ≠ 0 → RingFull s.rx → r = .next (faulted s .seq .rbOverflow)) ∧
  ((s.btr = 0 ∨ ¬ RingFull s.rx) → s.req = .none → s.stopp = false → r = .next (received c s)) ∧
  ((s.btr = 0 ∨ ¬ RingFull s.rx) → ¬ (s.req = .none ∧ s.stopp = false) → r = .next (faulted s .seq .requestCollision))

/-- The moves in which the engine gives each answer and SEQ handles it. -/
def answered (es : List (Byte × Byte)) : List Move := es.flatMap fun e => [.engAnswer e.1 e.2, .seq]

/-- A push or a pop of a ring. -/
inductive RingOp where
  | push (b : Byte)
  | pop
deriving DecidableEq, Repr

/-- A sequence of ring operations, the bytes popped collected in order. -/
def runRing (which : Buffer) (c : Nat) : List RingOp → Ring → Except FaultKind (List Byte × Ring)
  | [], r => .ok ([], r)
  | .push b :: ops, r =>
    match r.pushBack c b with
    | .ok r' => runRing which c ops r'
    | .error k => .error k
  | .pop :: ops, r =>
    match r.popFront which c with
    | .ok (v, r') =>
      match runRing which c ops r' with
      | .ok (vs, r'') => .ok (v :: vs, r'')
      | .error k => .error k
    | .error k => .error k

/-- The same sequence on a plain queue of at most `c` bytes. -/
def runQueue (c : Nat) : List RingOp → List Byte → Except FaultKind (List Byte × List Byte)
  | [], q => .ok ([], q)
  | .push b :: ops, q => if q.length = c then .error .rbOverflow else runQueue c ops (q ++ [b])
  | .pop :: _, [] => .error .rbUnderflow
  | .pop :: ops, v :: q =>
    match runQueue c ops q with
    | .ok (vs, q') => .ok (v :: vs, q')
    | .error k => .error k

/-- Pushes in order, with nothing popped. -/
def pushAll (c : Nat) : List Byte → Ring → Except FaultKind Ring
  | [], r => .ok r
  | b :: bs, r =>
    match r.pushBack c b with
    | .ok r' => pushAll c bs r'
    | .error k => .error k

/-- The commands that push nothing into TX (R79-R88). -/
def StoresNothing (i : Instr) : Prop :=
  i = .endTx ∨ i = .endRx ∨ (∃ n, i = .requestBytes n) ∨ i = .available ∨ i = .read ∨ i = .getStatus ∨ i = .getBtr
    ∨ (∃ w, i = .illegal w)

/-- A capital hexadecimal digit. -/
def hexDigit (k : Nat) : Char := "0123456789ABCDEF".toList.getD k '?'

/-- The ways R62 writes a number below 256: decimal, and `0x` with one or two hexadecimal digits. -/
def spellings (n : Nat) : List (List Char) :=
  let decimal := if n < 10 then [hexDigit n] else if n < 100 then [hexDigit (n / 10), hexDigit (n % 10)]
    else [hexDigit (n / 100), hexDigit (n / 10 % 10), hexDigit (n % 10)]
  let two := ['0', 'x', hexDigit (n / 16), hexDigit (n % 16)]
  if n < 16 then [decimal, ['0', 'x', hexDigit n], two] else [decimal, two]

/-- A line with one operand. -/
def lineOf (m : String) (operand : List Char) : List Char := m.toList ++ ' ' :: operand

/-- The table of R66 as it is printed: the class of `s &&& 0xF8`. -/
def tableClass (s : Byte) : EventClass :=
  match (s &&& 0xF8).toNat with
  | 0x08 => .start
  | 0x10 => .repStart
  | 0x18 => .slawAck
  | 0x20 => .slawNack
  | 0x28 => .dtxAck
  | 0x30 => .dtxNack
  | 0x40 => .slarAck
  | 0x48 => .slarNack
  | 0x50 => .drxAck
  | 0x58 => .drxNack
  | _ => .other

end Sys2Proof.Spec

open Sys2Proof Sys2Proof.Machine Sys2Proof.Spec

/-! ### Encodings -/

/-- A word of each host command, written out from 30_encoding.md R52-R57, decodes to the command it stands for, and a
status code of each class of the default map to its row (R66, general knowledge: log 12). A sanity statement. -/
def Obligations.WordsOfTheTableDecodeToTheirRows : Prop :=
  [0x1042, 0x2010, 0x3000, 0x4042, 0x5003, 0x6000, 0x7000, 0x8000, 0x9000, 0xA000, 0x3001].map decodeCommand
    = [.beginTx 0x42, .write 0x10, .endTx, .beginRx 0x42, .requestBytes 3, .available, .read, .endRx, .getStatus,
       .getBtr, .illegal 0x3001] ∧
  [0x08, 0x10, 0x18, 0x20, 0x28, 0x30, 0x40, 0x48, 0x57, 0x58, 0x38].map (decodeEvent defaultStatusMap)
    = [.evStart 0x08, .evRepStart 0x10, .evSlawAck 0x18, .evSlawNack 0x20, .evDtxAck 0x28, .evDtxNack 0x30,
       .evSlarAck 0x40, .evSlarNack 0x48, .evDrxAck 0x57, .evDrxNack 0x58, .evOther 0x38]

/-- Decode and encode agree on every well-formed instruction, whatever the status map: what is read back is the
instruction, or, for REQUEST_FROM, its four commands (R61, R63, R65). -/
def Obligations.DecodeOfEncodeIsTheInstruction : Prop :=
  ∀ (m : StatusMap) (i : Instr), i.wellFormed m = true → decodeEncoded m (encode i) = expand i

/-- Decoding is total and loses no bit: every word is one well-formed command, encoded back to that word, or it is
illegal, and then by R60's own conditions; every status code is the code of exactly the row it decodes to. -/
def Obligations.EveryWordIsOneCommandOrIllegal : Prop :=
  (∀ w : Word, encode (decodeCommand w) = .words [w] ∧ (decodeCommand w = .illegal w ↔ isIllegalWord w = true) ∧
    (∀ m, (decodeCommand w).wellFormed m = true)) ∧
  (∀ (m : StatusMap) (s : Byte), encode (decodeEvent m s) = .status s ∧ (decodeEvent m s).wellFormed m = true)

/-- The commands of R61 have the words R61 gives them, bit by bit. -/
def Obligations.EncodeGivesTheWordsOfTheRule : Prop :=
  (∀ a : Addr, encode (.beginTx a) = .words [0x1000 ||| a.setWidth 16]) ∧
  (∀ d : Byte, encode (.write d) = .words [0x2000 ||| d.setWidth 16]) ∧
  encode .endTx = .words [0x3000] ∧
  (∀ a : Addr, encode (.beginRx a) = .words [0x4000 ||| a.setWidth 16]) ∧
  (∀ n : Byte, encode (.requestBytes n) = .words [0x5000 ||| n.setWidth 16]) ∧
  encode .available = .words [0x6000] ∧ encode .read = .words [0x7000] ∧ encode .endRx = .words [0x8000] ∧
  encode .getStatus = .words [0x9000] ∧ encode .getBtr = .words [0xA000]

/-- The SLA byte holds the address in bits 7:1 and the direction in bit 0, 0 for write and 1 for read (R58). -/
def Obligations.SlaByteHoldsAddressAndDirection : Prop :=
  ∀ a : Addr,
    (slaByte a .write).extractLsb' 1 7 = a ∧ (slaByte a .write).getLsbD 0 = false ∧
    (slaByte a .read).extractLsb' 1 7 = a ∧ (slaByte a .read).getLsbD 0 = true

/-- The default status map classifies every code as the table of R66 does (general knowledge: log 12), and every total map
is a list of rows (R65): the parameter leaves nothing out (log 4). -/
def Obligations.StatusMapIsAnyTotalMap : Prop :=
  (∀ s, classify defaultStatusMap s = tableClass s) ∧
  (∀ f : Byte → EventClass, ∃ m : StatusMap, ∀ s, classify m s = f s)

/-- Each mnemonic and each alias of R62, with its operand in range in any of the spellings of R62, is read as its command, and
REQUEST_FROM (R63) as the pseudo-instruction, the comma between its operands as log 11 reads it; more generally an operand
is whatever the model's `number` reads. What the assembler accepts in a line is a command or the pseudo-instruction; a
line whose operand is out of range (an address above 127, a byte or count above 255) is refused; and every word the
assembler puts into a program is legal (R60). -/
def Obligations.AssemblerWritesLegalWordsOnly : Prop :=
  ((∀ m ∈ ["END_TX", "endTransmission"], assembleLine m.toList = some .endTx) ∧
    (∀ m ∈ ["AVAILABLE", "available"], assembleLine m.toList = some .available) ∧
    (∀ m ∈ ["READ", "read"], assembleLine m.toList = some .read) ∧
    (∀ m ∈ ["END_RX", "endReception"], assembleLine m.toList = some .endRx) ∧
    (∀ m ∈ ["GET_STATUS", "getStatus"], assembleLine m.toList = some .getStatus) ∧
    (∀ m ∈ ["GET_BTR", "getBytesToReceive"], assembleLine m.toList = some .getBtr)) ∧
  (∀ (a : Addr), ∀ t ∈ spellings a.toNat,
    (∀ m ∈ ["BEGIN_TX", "beginTransmission"], assembleLine (lineOf m t) = some (.beginTx a)) ∧
    (∀ m ∈ ["BEGIN_RX", "beginReception"], assembleLine (lineOf m t) = some (.beginRx a)) ∧
    (∀ (n : Byte), ∀ u ∈ spellings n.toNat,
      assembleLine (lineOf "REQUEST_FROM" (t ++ ',' :: ' ' :: u)) = some (.requestFrom a n))) ∧
  (∀ (n : Byte), ∀ t ∈ spellings n.toNat,
    (∀ m ∈ ["WRITE", "write"], assembleLine (lineOf m t) = some (.write n)) ∧
    (∀ m ∈ ["REQUEST_BYTES", "requestBytes"], assembleLine (lineOf m t) = some (.requestBytes n))) ∧
  (∀ line m x n, tokens line [] = [m, x] → number x = some n →
    (n ≤ 127 → named m "BEGIN_TX" "beginTransmission" = true → assembleLine line = some (.beginTx (BitVec.ofNat 7 n))) ∧
    (n ≤ 127 → named m "BEGIN_RX" "beginReception" = true → assembleLine line = some (.beginRx (BitVec.ofNat 7 n))) ∧
    (n ≤ 255 → named m "WRITE" "write" = true → assembleLine line = some (.write (BitVec.ofNat 8 n))) ∧
    (n ≤ 255 → named m "REQUEST_BYTES" "requestBytes" = true →
      assembleLine line = some (.requestBytes (BitVec.ofNat 8 n)))) ∧
  (∀ line i, assembleLine line = some i →
    (∃ a, i = .beginTx a) ∨ (∃ b, i = .write b) ∨ i = .endTx ∨ (∃ a, i = .beginRx a) ∨ (∃ n, i = .requestBytes n) ∨
      i = .available ∨ i = .read ∨ i = .endRx ∨ i = .getStatus ∨ i = .getBtr ∨ (∃ a n, i = .requestFrom a n)) ∧
  (∀ line m x n, tokens line [] = [m, x] → number x = some n →
    (255 < n ∨ (127 < n ∧ (named m "BEGIN_TX" "beginTransmission" = true ∨ named m "BEGIN_RX" "beginReception" = true))) →
    assembleLine line = none) ∧
  (∀ line m x y a n, tokens line [] = [m, x, [','], y] → number x = some a → number y = some n →
    (127 < a ∨ 255 < n) → assembleLine line = none) ∧
  (∀ (text : List (List Char)) (ws : List Word), assemble text = some ws → ∀ w ∈ ws, isIllegalWord w = false)

/-! ### Steps and agents -/

/-- A step runs the decoded instruction: where the word at HPC is the word of a well-formed command and HOST moves, the
step is exec of it; where an event is pending whose code is the code of a well-formed row and SEQ moves, the step is
exec of that row. The state handed over is the state with that move taken off the schedule, which is the model's own
(log 1). -/
def Obligations.StepRunsTheDecodedInstruction : Prop :=
  ∀ (s : State) (rest : List Move) (i : Instr), s.fault = none → i.wellFormed s.params.statusMap = true →
    (∀ w, s.schedule = .host :: rest → s.params.program[s.hpc]? = some w → encode i = .words [w] →
      step s = exec i { s with schedule := rest }) ∧
    (s.schedule = .seq :: rest → s.int = true → encode i = .status s.hwstat →
      step s = exec i { s with schedule := rest })

/-- A step makes the next move of the schedule, and where the schedule is empty the free move; a HOST that has finished
and a SEQ without event change nothing (R46, R76, R90). The schedule is the model's own (log 1); that a move of an agent
without a step is a step that changes nothing is the model's choice too (log 7). -/
def Obligations.StepMakesTheScheduledMove : Prop :=
  ∀ s : State,
    (∀ mv rest, s.schedule = mv :: rest → step s = stepBy mv { s with schedule := rest }) ∧
    (s.schedule = [] → step s = stepBy (Config.freeMove s.tick) { s with tick := s.tick + 1 }) ∧
    (s.fault = none → s.params.program.length ≤ s.hpc → stepBy .host s = .next s) ∧
    (s.fault = none → s.int = false → stepBy .seq s = .next s)

/-- A move whose agent has no step changes nothing: a waiting HOST waits (R77); an engine without request, or with an event
pending, does nothing (R104-R106). That it is a step that changes nothing, not an end of the run, is the model's
choice (log 7); so is the answer `stopped` in a faulted state (log 6). -/
def Obligations.MoveWithoutStepChangesNothing : Prop :=
  (∀ (mv : Move) (s : State), s.fault = none → s.enabled mv = false → stepBy mv s = .next s) ∧
  (∀ (s : State) (r : FaultRecord), s.fault = some r → step s = .fault (.stopped r))

/-- A command whose guard is false leaves the state as it is, whatever the command, and what each guard says (R77). That
waiting is a step that changes nothing is the model's choice (log 7). -/
def Obligations.CommandWaitsWhileGuardIsFalse : Prop :=
  (∀ (i : Instr) (s : State), (∀ a n, i ≠ .requestFrom a n) → hostGuard i s = false → exec i s = .next s) ∧
  (∀ a s, hostGuard (.beginTx a) s = false ↔ ¬ RingEmpty s.tx) ∧ (∀ a s, hostGuard (.beginRx a) s = false ↔ ¬ RingEmpty s.tx) ∧
  (∀ b s, hostGuard (.write b) s = false ↔ RingFull s.tx) ∧
  (∀ s, hostGuard .endTx s = false ↔ (s.hph = .zero ∧ ¬ RingEmpty s.tx) ∨ (s.hph = .one ∧ s.stopp = true)) ∧
  (∀ s, hostGuard .endRx s = false ↔ (s.hph = .zero ∧ s.btr ≠ 0) ∨ (s.hph = .one ∧ s.stopp = true))

/-- Every guard, once true, stays true until HOST's own next step (R78). -/
def Obligations.GuardStaysTrueUntilHostSteps : Prop :=
  ∀ (i : Instr) (mv : Move) (s t : State), mv ≠ .host → hostGuard i s = true → stepBy mv s = .next t → hostGuard i t = true

/-- With a silent engine and no event pending, a waiting HOST waits for ever: no number of HOST and SEQ moves changes
anything (R77, R137; waiting as a step that changes nothing is log 7). -/
def Obligations.SilentEngineLeavesHostWaiting : Prop :=
  ∀ (mvs : List Move) (s : State), (∀ mv ∈ mvs, mv = .host ∨ mv = .seq) → s.fault = none → s.int = false →
    s.hostEnabled = false → runMoves mvs s = .next s

/-- ENG may answer with any code and byte exactly where a request stands, no event is pending and FAULT is none; its
answer then writes HWSTAT, DATA for a data-received event alone, REQ and INT (R104). -/
def Obligations.EngineAnswerRaisesOneEvent : Prop :=
  ∀ (c d : Byte) (s : State),
    (s.enabled (.engAnswer c d) = true ↔ s.fault = none ∧ s.req ≠ .none ∧ s.int = false) ∧
    (s.fault = none → s.req ≠ .none → s.int = false →
      stepBy (.engAnswer c d) s =
        .next { s with
          hwstat := c
          data := if classify s.params.statusMap c = .drxAck ∨ classify s.params.statusMap c = .drxNack then d else s.data
          req := .none
          int := true })

/-- After a CLEAR, ENG may answer it or drop it, and the drop raises no event; it drops nothing else (R105); ENG completes a STOP, exactly where one
is pending and FAULT is none, without an event or a status (R106). -/
def Obligations.EngineDropsClearAndCompletesStop : Prop :=
  (∀ s : State, s.fault = none → s.req = .clear → s.int = false →
    s.enabled .engDrop = true ∧ (∀ c d, s.enabled (.engAnswer c d) = true) ∧
    stepBy .engDrop s = .next { s with req := .none }) ∧
  (∀ s : State, s.Inv → (s.enabled .engDrop = true ↔ s.fault = none ∧ s.req = .clear)) ∧
  (∀ s : State, (s.enabled .engStop = true ↔ s.fault = none ∧ s.stopp = true) ∧
    (s.fault = none → s.stopp = true → stepBy .engStop s = .next { s with stopp := false }))

/-- RELEASE and STOP start no event: after either the engine has no answer to give (R107). -/
def Obligations.ReleaseAndStopLeaveNoRequest : Prop :=
  ∀ (g : Agent) (s t : State),
    (s.issue g .release = .ok t →
      t = { s with trace := s.trace ++ [⟨g, .release, s.data⟩] } ∧ t.answerEnabled = false ∧ t.dropEnabled = false) ∧
    (s.issue g .stop = .ok t →
      t = { s with trace := s.trace ++ [⟨g, .stop, s.data⟩], stopp := true } ∧ t.answerEnabled = false
        ∧ t.dropEnabled = false)

/-- `issue` (R103), whole: it faults exactly when a request, an event or a STOP is outstanding, and otherwise records
the request with the agent and DATA and sets REQ or STOPP. -/
def Obligations.IssueRecordsAndHandsOver : Prop :=
  ∀ (g : Agent) (a : Action) (s : State),
    ((s.req ≠ .none ∨ s.int = true ∨ s.stopp = true) → s.issue g a = .error .requestCollision) ∧
    (Idle s → (a = .start ∨ a = .cont ∨ a = .ack ∨ a = .nack ∨ a = .clear) →
      s.issue g a = .ok { s with trace := s.trace ++ [⟨g, a, s.data⟩], req := reqAfter a }) ∧
    (Idle s → s.issue g .stop = .ok { s with trace := s.trace ++ [⟨g, .stop, s.data⟩], stopp := true }) ∧
    (Idle s → s.issue g .release = .ok { s with trace := s.trace ++ [⟨g, .release, s.data⟩] })

/-! ### Reset and the end of a run -/

/-- Reset leaves every element at the value R125 gives it; the unspecified ones (ring contents, DATA, HWSTAT) are not
stated. -/
def Obligations.ResetLeavesTheStatedValues : Prop :=
  State.reset.tx.head = 0 ∧ State.reset.tx.tail = 0 ∧ State.reset.tx.last = .read ∧
  State.reset.rx.head = 0 ∧ State.reset.rx.tail = 0 ∧ State.reset.rx.last = .read ∧
  State.reset.btr = 0 ∧ State.reset.status = 0x00 ∧ State.reset.int = false ∧ State.reset.req = .none ∧
  State.reset.stopp = false ∧ State.reset.fault = none ∧ State.reset.hpc = 0 ∧ State.reset.hph = .zero ∧
  State.reset.out = [] ∧ State.reset.trace = []

/-- The invariant holds at reset, whose parameters are the model's choice (log 4). -/
def Obligations.ResetSatisfiesTheInvariant : Prop := State.reset.Inv

/-- Every step keeps the invariant: canonical storage, indexes in range, queued slots written, BTR within its width, at
most one thing outstanding at the engine, HPH 1 only inside END_TX and END_RX. -/
def Obligations.StepKeepsTheInvariant : Prop := ∀ s t : State, s.Inv → step s = .next t → t.Inv

/-- Final and stuck, as R128 defines them: in a final state no agent has a step, a faulted state is never final, and a state
in which no agent has a step is final or stuck. -/
def Obligations.FinalAndStuckStatesHaveNoStep : Prop :=
  ∀ s : State,
    (s.final = true ↔ s.fault = none ∧ s.hpc = s.params.program.length ∧ s.int = false ∧ s.req = .none ∧ s.stopp = false) ∧
    (s.final = true → ∀ mv, s.enabled mv = false) ∧
    (s.stuck = true ↔ (∀ mv, s.enabled mv = false) ∧ s.final = false)

/-! ### Storage and ring buffers -/

/-- A write to a slot of storage is read back and leaves every other slot alone (R37). -/
def Obligations.SlotWriteIsReadBackAlone : Prop :=
  ∀ (m : Memory) (i : Nat) (b : Byte),
    (m.write i b).read i = some b ∧ ∀ j, j ≠ i → (m.write i b).read j = m.read j

/-- isEmpty, isFull and count, as R67, R68 and R69 give them; never both empty and full, and exactly one of them when
the indexes meet (R73 (a)). -/
def Obligations.EmptyFullAndCountFollowTheTag : Prop :=
  ∀ (c : Nat) (r : Ring),
    (r.isEmpty = true ↔ RingEmpty r) ∧ (r.isFull = true ↔ RingFull r) ∧ ¬ (r.isEmpty = true ∧ r.isFull = true) ∧
    (r.head = r.tail → (r.isEmpty = true ∨ r.isFull = true)) ∧
    (RingFull r → r.count c = c) ∧ (RingEmpty r → r.count c = 0) ∧
    (r.head ≠ r.tail → r.count c = (r.head + c - r.tail) % c)

/-- pushBack, popFront and peekFront, as R70, R71 and R72 give them. -/
def Obligations.RingPrimitivesFollowTheirRules : Prop :=
  ∀ (w : Buffer) (c : Nat) (r : Ring) (b : Byte),
    (RingFull r → r.pushBack c b = .error .rbOverflow) ∧ (¬ RingFull r → r.pushBack c b = .ok (pushed c r b)) ∧
    (RingEmpty r → r.popFront w c = .error .rbUnderflow ∧ r.peekFront w = .error .rbUnderflow) ∧
    (∀ v, ¬ RingEmpty r → r.buf.read r.tail = some v →
      r.popFront w c = .ok (v, popped c r) ∧ r.peekFront w = .ok v)

/-- C pushes into an empty ring leave it full with head = tail; one pop then leaves it not full with C - 1 bytes
(R74). -/
def Obligations.CapacityPushesFillTheRing : Prop :=
  ∀ (w : Buffer) (c : Nat) (r : Ring) (bs : List Byte), r.Inv c → RingEmpty r → bs.length = c →
    ∃ r', pushAll c bs r = .ok r' ∧ r'.head = r'.tail ∧ RingFull r' ∧
      ∃ v r'', r'.popFront w c = .ok (v, r'') ∧ ¬ RingFull r'' ∧ r''.count c = c - 1

/-- A ring buffer is a queue of at most C bytes (R73): any sequence of pushes and pops on a new ring pops the same bytes
as on a plain queue, faults where the queue does, and leaves a ring that holds, oldest first, the bytes pushed and
not yet popped, as many as count says. -/
def Obligations.RingBufferIsABoundedQueue : Prop :=
  ∀ (w : Buffer) (c : Nat) (ops : List RingOp), 1 ≤ c →
    match runQueue c ops [] with
    | .ok (vs, q) => ∃ r, runRing w c ops Ring.empty = .ok (vs, r) ∧ r.Inv c ∧ r.contents w c = q ∧ r.count c = q.length
    | .error k => runRing w c ops Ring.empty = .error k

/-! ### Host commands -/

/-- BEGIN_TX (R79): it waits while TX is not empty (R77), faults when the engine is busy, and otherwise pushes SLA+W, asks for
a START and completes; nothing else changes. That waiting is a step that changes nothing is the model's choice (log 7). -/
def Obligations.BeginTxPushesSlaWriteAndStarts : Prop :=
  ∀ (a : Addr) (s : State), BeginCases (a ++ (0 : BitVec 1)) s (exec (.beginTx a) s)

/-- BEGIN_RX (R82): as BEGIN_TX with SLA+R; BTR is not changed. That waiting (R77) is a step that changes nothing is the
model's choice (log 7). -/
def Obligations.BeginRxPushesSlaReadAndStarts : Prop :=
  ∀ (a : Addr) (s : State), BeginCases (a ++ (1 : BitVec 1)) s (exec (.beginRx a) s)

/-- WRITE (R80): it waits while TX is full (R77); it only queues the byte when TX is not empty; on an empty TX it queues,
loads and sends it, or faults when the engine is busy. That waiting is a step that changes nothing is the model's
choice (log 7). -/
def Obligations.WriteQueuesAndKicksAnEmptyTx : Prop :=
  ∀ (b : Byte) (s : State),
    (RingFull s.tx → exec (.write b) s = .next s) ∧
    (¬ RingFull s.tx → ¬ RingEmpty s.tx →
      exec (.write b) s = .next (completed { s with tx := pushed s.params.capacity s.tx b })) ∧
    (RingEmpty s.tx → Idle s →
      exec (.write b) s =
        .next (completed
          { s with
            tx := pushed s.params.capacity s.tx b
            data := b
            trace := s.trace ++ [⟨.host, .cont, b⟩]
            req := .cont })) ∧
    (RingEmpty s.tx → ¬ Idle s → exec (.write b) s = .next (faulted s .host .requestCollision))

/-- END_TX (R81): phase 0 waits for TX to drain and issues STOP, or faults when the engine is busy; phase 1 waits for the
STOP and reports STATUS. That waiting (R77) is a step that changes nothing is the model's choice (log 7). -/
def Obligations.EndTxStopsThenReportsStatus : Prop :=
  ∀ s : State,
    (s.hph = .zero → ¬ RingEmpty s.tx → exec .endTx s = .next s) ∧
    (s.hph = .zero → RingEmpty s.tx → Idle s → exec .endTx s = .next (stopIssued s)) ∧
    (s.hph = .zero → RingEmpty s.tx → ¬ Idle s → exec .endTx s = .next (faulted s .host .requestCollision)) ∧
    (s.hph = .one → s.stopp = true → exec .endTx s = .next s) ∧
    (s.hph = .one → s.stopp = false → exec .endTx s = .next (reported (s.status.setWidth 16) s))

/-- END_RX (R86): phase 0 waits for BTR = 0 and issues STOP, or faults when the engine is busy; phase 1 waits for the STOP
and completes without a result. That waiting (R77) is a step that changes nothing is the model's choice (log 7). -/
def Obligations.EndRxStopsThenCompletes : Prop :=
  ∀ s : State,
    (s.hph = .zero → s.btr ≠ 0 → exec .endRx s = .next s) ∧
    (s.hph = .zero → s.btr = 0 → Idle s → exec .endRx s = .next (stopIssued s)) ∧
    (s.hph = .zero → s.btr = 0 → ¬ Idle s → exec .endRx s = .next (faulted s .host .requestCollision)) ∧
    (s.hph = .one → s.stopp = true → exec .endRx s = .next s) ∧
    (s.hph = .one → s.stopp = false → exec .endRx s = .next (completed s))

/-- END_TX on a drained TX with an idle engine takes one STOP and no event: HOST, the engine's completion, HOST; the
result is the STATUS of the last event handled before (R81, R106). -/
def Obligations.EndTxCompletesWithOneStop : Prop :=
  ∀ s : State, s.fault = none → Idle s → RingEmpty s.tx → s.hph = .zero → s.params.program[s.hpc]? = some 0x3000 →
    runMoves [.host, .engStop, .host] s =
      .next (reported (s.status.setWidth 16) { s with trace := s.trace ++ [⟨.host, .stop, s.data⟩] })

/-- REQUEST_BYTES (R83): it adds N to BTR, or faults when the sum exceeds 2^W_BTR - 1; it issues nothing. -/
def Obligations.RequestBytesAddsToBtrOrFaults : Prop :=
  ∀ (n : Byte) (s : State),
    (s.btr + n.toNat ≤ 2 ^ s.params.btrWidth - 1 →
      exec (.requestBytes n) s = .next (completed { s with btr := s.btr + n.toNat })) ∧
    (2 ^ s.params.btrWidth - 1 < s.btr + n.toNat →
      exec (.requestBytes n) s = .next (faulted s .host .btrOverflow))

/-- AVAILABLE, GET_STATUS and GET_BTR report a value and change nothing else (R84, R87, R88): the count of RX, which is C,
not 0, when RX is full; STATUS; BTR. -/
def Obligations.ObserversReportAndChangeNothingElse : Prop :=
  ∀ s : State,
    (RingEmpty s.rx → exec .available s = .next (reported 0 s)) ∧
    (RingFull s.rx → exec .available s = .next (reported (BitVec.ofNat 16 s.params.capacity) s)) ∧
    (s.rx.head ≠ s.rx.tail → exec .available s = .next (reported
      (BitVec.ofNat 16 ((s.rx.head + s.params.capacity - s.rx.tail) % s.params.capacity)) s)) ∧
    exec .getStatus s = .next (reported (s.status.setWidth 16) s) ∧
    exec .getBtr s = .next (reported (BitVec.ofNat 16 s.btr) s)

/-- READ (R85): on an empty RX it reports 0 and RX is unchanged; otherwise it reports the front byte and removes it. The
byte of a slot that was written is the byte written; that of any other slot is the free value (log 2). -/
def Obligations.ReadTakesTheFrontByteOrReportsZero : Prop :=
  ∀ s : State,
    (RingEmpty s.rx → exec .read s = .next (reported 0x0000 s)) ∧
    (¬ RingEmpty s.rx → exec .read s =
      .next (reported ((s.rx.slot .rx s.rx.tail).setWidth 16) { s with rx := popped s.params.capacity s.rx })) ∧
    (∀ v, s.rx.buf.read s.rx.tail = some v → s.rx.slot .rx s.rx.tail = v)

/-- The words R60 calls illegal are those that decode to no command; an illegal word raises ILLEGAL_COMMAND and changes
nothing else, and HOST's step at such a word does so (R60). -/
def Obligations.IllegalWordRaisesIllegalCommand : Prop :=
  (∀ w : Word, decodeCommand w = .illegal w ↔ isIllegalWord w = true) ∧
  (∀ (w : Word) (s : State), exec (.illegal w) s = .next (faulted s .host .illegalCommand)) ∧
  (∀ (w : Word) (s : State), s.fault = none → s.params.program[s.hpc]? = some w → isIllegalWord w = true →
    stepBy .host s = .next (faulted s .host .illegalCommand))

/-- REQUEST_FROM (R63): the four words stand at HPC in the rule's order, the rest of the program after them, and HOST's
step there is the step of BEGIN_RX, the first of them. That the words are put into the program is the model's choice
(log 8), and so is that waiting is a step that changes nothing (log 7). -/
def Obligations.RequestFromIsItsFourWords : Prop :=
  ∀ (a : Addr) (n : Byte) (s : State), s.hpc ≤ s.params.program.length →
    ∃ p : List Word,
      (∀ k, k < s.hpc → p[k]? = s.params.program[k]?) ∧
      p[s.hpc]? = some (0x4000 ||| a.setWidth 16) ∧ p[s.hpc + 1]? = some (0x5000 ||| n.setWidth 16) ∧
      p[s.hpc + 2]? = some 0x8000 ∧ p[s.hpc + 3]? = some 0x6000 ∧
      (∀ k, s.hpc ≤ k → p[k + 4]? = s.params.program[k]?) ∧
      BeginCases (a ++ (1 : BitVec 1)) { s with params := { s.params with program := p } } (exec (.requestFrom a n) s)

/-- The result of REQUEST_FROM (R89): when its four commands run in order with REQUEST_BYTES taken before the bus moves, RX
empty, BTR 0, n at most C, the slave ACKs its address and the engine reports every byte, the
AVAILABLE result is n and RX holds the n bytes in order. -/
def Obligations.RequestFromReportsTheBytesReceived : Prop :=
  ∀ (a : Addr) (n : Byte) (c0 c1 : Byte) (d0 d1 : Byte) (es : List (Byte × Byte)) (s : State), s.Inv → s.fault = none →
    Idle s → RingEmpty s.tx → RingEmpty s.rx → s.btr = 0 → s.hph = .zero →
    n.toNat ≤ s.params.capacity → es.length = n.toNat →
    s.params.program[s.hpc]? = some (0x4000 ||| a.setWidth 16) →
    s.params.program[s.hpc + 1]? = some (0x5000 ||| n.setWidth 16) →
    s.params.program[s.hpc + 2]? = some 0x8000 → s.params.program[s.hpc + 3]? = some 0x6000 →
    classify s.params.statusMap c0 = .start → classify s.params.statusMap c1 = .slarAck →
    (∀ e ∈ es, classify s.params.statusMap e.1 = .drxAck ∨ classify s.params.statusMap e.1 = .drxNack) →
    ∃ t, runMoves ([.host, .host] ++ answered ((c0, d0) :: (c1, d1) :: es) ++ [.host, .engStop, .host, .host]) s = .next t ∧
      t.out = s.out ++ [BitVec.ofNat 16 n.toNat] ∧ t.rx.contents .rx s.params.capacity = es.map (·.2) ∧ t.btr = 0 ∧
      t.hpc = s.hpc + 4 ∧ t.fault = none

/-! ### The event sequencer -/

/-- nextAction (R92), whole: a collision where the engine is busy (R103), else the four cases. -/
def Obligations.NextActionChoosesTheRequest : Prop :=
  ∀ s : State,
    (¬ Idle s → s.nextAction = .error .requestCollision) ∧
    (Idle s → ¬ RingEmpty s.tx → ∀ v, s.tx.buf.read s.tx.tail = some v →
      s.nextAction = .ok { s with data := v, trace := s.trace ++ [⟨.seq, .cont, v⟩], req := .cont }) ∧
    (Idle s → RingEmpty s.tx → s.btr = 1 →
      s.nextAction = .ok { s with trace := s.trace ++ [⟨.seq, .nack, s.data⟩], req := .nack }) ∧
    (Idle s → RingEmpty s.tx → 1 < s.btr →
      s.nextAction = .ok { s with trace := s.trace ++ [⟨.seq, .cont, s.data⟩], req := .cont }) ∧
    (Idle s → RingEmpty s.tx → s.btr = 0 →
      s.nextAction = .ok { s with trace := s.trace ++ [⟨.seq, .release, s.data⟩] })

/-- EV_START and EV_REP_START (R93): STATUS takes the code, INT is cleared, the next action follows; TX is unchanged. -/
def Obligations.StartRowsTakeTheNextAction : Prop :=
  ∀ (c : Byte) (s : State), ∀ i ∈ [Instr.evStart c, Instr.evRepStart c],
    (s.req = .none → s.stopp = false → exec i s = .next (acted { s with status := c, int := false })) ∧
    (¬ (s.req = .none ∧ s.stopp = false) → exec i s = .next (faulted s .seq .requestCollision))

/-- EV_SLAW_ACK and EV_SLAR_ACK (R94): the SLA byte leaves TX, then the next action; RB_UNDERFLOW on an empty TX. -/
def Obligations.AddressAckConsumesTheSlaByte : Prop :=
  ∀ (c : Byte) (s : State), ∀ i ∈ [Instr.evSlawAck c, Instr.evSlarAck c], SentCases c s.btr s (exec i s)

/-- EV_SLAW_NACK (R95): as an address ACK; the transaction is not aborted. -/
def Obligations.WriteAddressNackDoesNotAbort : Prop :=
  ∀ (c : Byte) (s : State), SentCases c s.btr s (exec (.evSlawNack c) s)

/-- EV_SLAR_NACK (R96): the SLA byte leaves TX and BTR becomes 0 before the next action. -/
def Obligations.ReadAddressNackZeroesBtr : Prop :=
  ∀ (c : Byte) (s : State), SentCases c 0 s (exec (.evSlarNack c) s)

/-- EV_DTX_ACK and EV_DTX_NACK (R97): the data byte leaves TX, then the next action; a NACK is handled like an ACK. -/
def Obligations.DataAckAndNackConsumeTheByte : Prop :=
  ∀ (c : Byte) (s : State), ∀ i ∈ [Instr.evDtxAck c, Instr.evDtxNack c], SentCases c s.btr s (exec i s)

/-- EV_DRX_ACK and EV_DRX_NACK (R98): an expected byte goes into RX and is counted off, then ACK, NACK or RELEASE by what
remains; RB_OVERFLOW when RX is full; TX is not looked at. -/
def Obligations.ReceivedByteIsStoredAndAcknowledged : Prop :=
  ∀ (c : Byte) (s : State), ∀ i ∈ [Instr.evDrxAck c, Instr.evDrxNack c], ReceivedCases c s (exec i s)

/-- EV_OTHER (R99): CLEAR is issued and STATUS records the code; TX, RX and BTR are unchanged. -/
def Obligations.OtherStatusOnlyClears : Prop :=
  ∀ (c : Byte) (s : State),
    (s.req = .none → s.stopp = false → exec (.evOther c) s =
      .next { s with status := c, int := false, trace := s.trace ++ [⟨.seq, .clear, s.data⟩], req := .clear }) ∧
    (¬ (s.req = .none ∧ s.stopp = false) → exec (.evOther c) s = .next (faulted s .seq .requestCollision))

/-- SEQ's step at a pending event writes STATUS with the code as delivered, clears INT and issues exactly one request, or
faults (R91). -/
def Obligations.SeqStepIssuesExactlyOneRequest : Prop :=
  ∀ s t : State, s.fault = none → s.int = true → stepBy .seq s = .next t → t.fault = none →
    t.status = s.hwstat ∧ t.int = false ∧ ∃ a d, t.trace = s.trace ++ [⟨.seq, a, d⟩] ∧ t.data = d ∧ t.req = reqAfter a

/-- When a SEQ step drains TX with BTR = 0, it has issued RELEASE, and the engine has no request and no event (R129). -/
def Obligations.DrainingTxReleasesTheEngine : Prop :=
  ∀ s t : State, s.Inv → s.fault = none → ¬ RingEmpty s.tx → s.btr = 0 → stepBy .seq s = .next t → RingEmpty t.tx →
    t.req = .none ∧ t.int = false ∧ t.trace = s.trace ++ [⟨.seq, .release, s.data⟩]

/-- After EV_SLAR_NACK, with TX then empty, BTR is 0, RELEASE was issued, and phase 0 of END_RX runs without any further
event (R101). -/
def Obligations.ReadAddressNackLetsEndRxProceed : Prop :=
  ∀ (c : Byte) (s t : State), s.fault = none → s.req = .none → s.stopp = false → exec (.evSlarNack c) s = .next t →
    t.fault = none → t.btr = 0 ∧ (RingEmpty t.tx → t.trace = s.trace ++ [⟨.seq, .release, s.data⟩] ∧
      (t.hph = .zero → exec .endRx t = .next (stopIssued t)))

/-- The last-byte NACK law (R100), up to any byte of the reception: from the SLA+R ACK with BTR = N, after k of the N bytes
the requests are CONTINUE or NACK and then, for byte j, ACK, NACK or RELEASE by the N - j that remain; RX has gained the k
bytes in order and BTR is N - k. Stated for a reception in which no HOST step falls between. -/
def Obligations.LastByteOfAReceptionIsNacked : Prop :=
  ∀ (es : List (Byte × Byte)) (s : State), s.Inv → s.fault = none → s.int = true →
    classify s.params.statusMap s.hwstat = .slarAck → s.tx.count s.params.capacity = 1 →
    1 ≤ s.btr → es.length ≤ s.btr → s.rx.count s.params.capacity + s.btr ≤ s.params.capacity →
    (∀ e ∈ es, classify s.params.statusMap e.1 = .drxAck ∨ classify s.params.statusMap e.1 = .drxNack) →
    ∃ t, runMoves (.seq :: answered es) s = .next t ∧ t.fault = none ∧ t.int = false ∧
      t.btr = s.btr - es.length ∧
      t.rx.contents .rx s.params.capacity = s.rx.contents .rx s.params.capacity ++ es.map (·.2) ∧
      t.trace = s.trace ++ [⟨.seq, if s.btr = 1 then .nack else .cont, s.data⟩] ++
        es.mapIdx (fun j e => (⟨.seq, if s.btr - (j + 1) = 0 then .release else if s.btr - (j + 1) = 1 then .nack else .ack, e.2⟩ : TraceEntry))

/-- A write phase sends the queued bytes in order, whatever the slave answers: from the EV_START of a TX that holds `q`, with
BTR = 0, an ACK or a NACK for each byte loads the next one, and after the last RELEASE is issued and TX is empty (R92-R97). -/
def Obligations.QueuedBytesAreSentInOrder : Prop :=
  ∀ (q : List Byte) (es : List (Byte × Byte)) (s : State), s.Inv → s.fault = none → s.int = true → s.btr = 0 →
    (classify s.params.statusMap s.hwstat = .start ∨ classify s.params.statusMap s.hwstat = .repStart) →
    s.tx.contents .tx s.params.capacity = q → es.length = q.length → q ≠ [] →
    (∀ e ∈ es, classify s.params.statusMap e.1 = .slawAck ∨ classify s.params.statusMap e.1 = .slawNack ∨
      classify s.params.statusMap e.1 = .dtxAck ∨ classify s.params.statusMap e.1 = .dtxNack) →
    ∃ t, runMoves (.seq :: answered es) s = .next t ∧ t.fault = none ∧ RingEmpty t.tx ∧ Idle t ∧
      t.trace = s.trace ++ q.map (fun b => (⟨.seq, .cont, b⟩ : TraceEntry)) ++ [⟨.seq, .release, q.getLast?.getD 0⟩]

/-! ### Hazards -/

/-- A REQUEST_BYTES that lands after SEQ has released the bus raises BTR but issues no request, and a following END_RX
waits for ever: no move of any agent changes the state, which is stuck (70_reset_and_hazards.md R130). That a run goes on
without a change, and does not end, is the model's choice (log 7). -/
def Obligations.LateRequestStartsNothing : Prop :=
  ∀ (n : Byte) (s : State), s.fault = none → Idle s → s.hph = .zero → s.btr = 0 → n ≠ 0 →
    8 ≤ s.params.btrWidth →
    s.params.program[s.hpc]? = some (0x5000 ||| n.setWidth 16) → s.params.program[s.hpc + 1]? = some 0x8000 →
    stepBy .host s = .next (completed { s with btr := n.toNat }) ∧
    (completed { s with btr := n.toNat }).stuck = true ∧
    ∀ mvs, runMoves mvs (completed { s with btr := n.toNat }) = .next (completed { s with btr := n.toNat })

/-- After an EV_OTHER that the engine follows with nothing, an END_TX, BEGIN_TX or BEGIN_RX waiting on TX, or an END_RX waiting
on BTR, waits for ever: no move changes the state (R134). That a run goes on without a change, and does not end, is the
model's choice (log 7). -/
def Obligations.OtherStatusStallsTheTransaction : Prop :=
  ∀ (mvs : List Move) (s : State), s.Inv → s.fault = none → s.int = true → s.hph = .zero →
    classify s.params.statusMap s.hwstat = .other →
    ((s.params.program[s.hpc]? = some 0x3000 ∧ ¬ RingEmpty s.tx) ∨
      (∃ a : Addr, (s.params.program[s.hpc]? = some (0x1000 ||| a.setWidth 16) ∨
        s.params.program[s.hpc]? = some (0x4000 ||| a.setWidth 16)) ∧ ¬ RingEmpty s.tx) ∨
      (s.params.program[s.hpc]? = some 0x8000 ∧ s.btr ≠ 0)) →
    runMoves (.seq :: .engDrop :: mvs) s =
      .next { s with status := s.hwstat, int := false, trace := s.trace ++ [⟨.seq, .clear, s.data⟩] }

/-! ### Faults -/

/-- A fault is precise and sticky (R113): the faulting step changes nothing but FAULT, records the agent that moved and HPC,
from then on no agent has a step, and the state is not final. -/
def Obligations.FaultIsPreciseAndSticky : Prop :=
  ∀ (mv : Move) (s t : State) (r : FaultRecord), s.fault = none → stepBy mv s = .next t → t.fault = some r →
    t = { s with fault := some r } ∧ r.hpc = s.hpc ∧ ((mv = .host ∧ r.agent = .host) ∨ (mv = .seq ∧ r.agent = .seq)) ∧
    (∀ mv', t.enabled mv' = false) ∧ t.final = false

/-- Which agent raises which fault (R112), in states the invariant allows: HOST never over- or underflows a ring, SEQ
never collides, ENG raises none. -/
def Obligations.EachAgentRaisesOnlyItsFaults : Prop :=
  ∀ (mv : Move) (s t : State) (r : FaultRecord), s.Inv → s.fault = none → stepBy mv s = .next t → t.fault = some r →
    (mv = .host → r.kind = .requestCollision ∨ r.kind = .btrOverflow ∨ r.kind = .illegalCommand) ∧
    (mv = .seq → r.kind = .rbOverflow ∨ r.kind = .rbUnderflow) ∧ (mv = .host ∨ mv = .seq)

/-! ### Who writes what -/

/-- The writers of R17's table and the single-producer, single-consumer partition (R20, R47): HOST never pops TX or pushes
RX, SEQ never pushes TX or pops RX (told by the index and, where C = 1 makes every index 0, by the tag, R35), ENG touches
neither ring; STATUS is SEQ's, HWSTAT is ENG's, HPC, HPH and OUT are
HOST's; no step changes the parameters. -/
def Obligations.EachElementHasItsWriters : Prop :=
  ∀ (mv : Move) (s t : State), stepBy mv s = .next t →
    t.params = s.params ∧
    (mv = .host → (t.tx.last = s.tx.last ∨ t.tx.last = .write) ∧ (t.rx.last = s.rx.last ∨ t.rx.last = .read)) ∧
    (mv = .seq → (t.tx.last = s.tx.last ∨ t.tx.last = .read) ∧ (t.rx.last = s.rx.last ∨ t.rx.last = .write)) ∧
    (mv = .host → t.tx.tail = s.tx.tail ∧ t.rx.head = s.rx.head ∧ t.rx.buf = s.rx.buf ∧ t.status = s.status ∧
      t.hwstat = s.hwstat ∧ t.int = s.int ∧ s.btr ≤ t.btr) ∧
    (mv = .seq → t.tx.head = s.tx.head ∧ t.tx.buf = s.tx.buf ∧ t.rx.tail = s.rx.tail ∧ t.hwstat = s.hwstat ∧
      t.hpc = s.hpc ∧ t.hph = s.hph ∧ t.out = s.out ∧ t.stopp = s.stopp ∧ t.btr ≤ s.btr) ∧
    ((mv ≠ .host ∧ mv ≠ .seq) → t.tx = s.tx ∧ t.rx = s.rx ∧ t.btr = s.btr ∧ t.status = s.status ∧ t.hpc = s.hpc ∧
      t.hph = s.hph ∧ t.out = s.out ∧ t.trace = s.trace ∧ t.fault = s.fault)

/-- HPC stays or, by a HOST step, advances by exactly 1 (R30); OUT gains at most one result a step and TRACE at most one
request, both at the end (R32, R33). -/
def Obligations.HostPositionAdvancesByOne : Prop :=
  ∀ (mv : Move) (s t : State), stepBy mv s = .next t →
    (t.hpc = s.hpc ∨ (mv = .host ∧ t.hpc = s.hpc + 1 ∧ t.hph = .zero)) ∧
    (t.out = s.out ∨ ∃ v, t.out = s.out ++ [v] ∧ t.hpc = s.hpc + 1) ∧
    (t.trace = s.trace ∨ ∃ e, t.trace = s.trace ++ [e])

/-- Which byte of storage an instruction stores to (R37): a begin command and WRITE store at TX.head, the other commands
store nothing; an event stores nothing in TX, and in RX only a received byte, at RX.head. -/
def Obligations.StorageChangesOnlyAtTheHead : Prop :=
  (∀ (i : Instr) (s t : State), ((∃ a, i = .beginTx a) ∨ (∃ a, i = .beginRx a) ∨ (∃ b, i = .write b)) →
    exec i s = .next t → t.rx = s.rx ∧ ∀ k, k ≠ s.tx.head → t.tx.buf.read k = s.tx.buf.read k) ∧
  (∀ (i : Instr) (s t : State), StoresNothing i → exec i s = .next t → t.tx = s.tx ∧ t.rx.buf = s.rx.buf) ∧
  (∀ (m : StatusMap) (c : Byte) (s t : State), exec (decodeEvent m c) s = .next t →
    t.tx.buf = s.tx.buf ∧ (∀ k, k ≠ s.rx.head → t.rx.buf.read k = s.rx.buf.read k) ∧
    (classify m c ≠ .drxAck → classify m c ≠ .drxNack → t.rx = s.rx))

/-! ### The conformant engine -/

/-- Under ENG_CONFORMANT no EV_OTHER is ever pending (R109): a premise of general knowledge, no part of the machine. -/
def Obligations.ConformantEngineNeverRaisesOther : Prop :=
  ∀ (m : EngineMode) (mvs : List Move) (s t : State), conformantRun m s mvs = true → runMoves mvs s = .next t →
    (s.int = true → classify s.params.statusMap s.hwstat ≠ .other) →
    t.int = true → classify t.params.statusMap t.hwstat ≠ .other

/-- After reset (R126), whatever the parameters: HOST is at command 0 of its program and its step is that command's; no other
agent has a step. SEQ gets one only by an answer of ENG, and ENG only by a request of the block: the one entry TRACE gains,
with the agent that moved, the DATA of that moment, and the action that REQ or STOPP then holds.
Under ENG_CONFORMANT the engine mode is IDLE (a premise of general knowledge, log 14), so the answer to the START of a
first begin command is an EV_START. -/
def Obligations.ResetLeavesOnlyHostAStep : Prop :=
  (∀ s : State, s.atReset →
    s.hpc = 0 ∧ s.hph = .zero ∧ (∀ w, s.params.program[0]? = some w → stepBy .host s = exec (decodeCommand w) s) ∧
    (∀ mv, mv ≠ .host → s.enabled mv = false)) ∧
  (∀ (mv : Move) (s t : State), stepBy mv s = .next t →
    (s.int = false → t.int = true → ∃ c d, mv = .engAnswer c d) ∧
    (s.req = .none → s.stopp = false → (t.req ≠ .none ∨ t.stopp = true) →
      ∃ e, t.trace = s.trace ++ [e] ∧ ((mv = .host ∧ e.agent = .host) ∨ (mv = .seq ∧ e.agent = .seq)) ∧
        e.data = t.data ∧ t.req = reqAfter e.action ∧ (t.stopp = true ↔ e.action = .stop))) ∧
  (∀ (s : State) (w : Word) (a : Addr) (c d : Byte) (rest : List Move), s.params.program[0]? = some w →
    (decodeCommand w = .beginTx a ∨ decodeCommand w = .beginRx a) →
    engConformant s (.host :: .engAnswer c d :: rest) → classify s.params.statusMap c = .start)
end

