-- ==== Sys2Proof/Laws/Decode.lean ====
section
/-! SUPPORT. What the decoder can answer: a command word is never read as the pseudo-instruction or as an event. -/

namespace Sys2Proof

/-- The instructions a command word can be read as (30_encoding.md R61). -/
def Instr.isCommandOrIllegal : Instr → Bool
  | .beginTx _ | .write _ | .endTx | .beginRx _ | .requestBytes _ | .available | .read | .endRx
  | .getStatus | .getBtr | .illegal _ => true
  | .requestFrom _ _ => false
  | .evStart _ | .evRepStart _ | .evSlawAck _ | .evSlawNack _ | .evDtxAck _ | .evDtxNack _
  | .evSlarAck _ | .evSlarNack _ | .evDrxAck _ | .evDrxNack _ | .evOther _ => false

theorem decodeAddressed_command (w : Word) {i : Addr → Instr} (h : ∀ a, (i a).isCommandOrIllegal = true) :
    (decodeAddressed w i).isCommandOrIllegal = true := by
  unfold decodeAddressed
  split
  · rfl
  · exact h _

theorem decodeBare_command (w : Word) {i : Instr} (h : i.isCommandOrIllegal = true) :
    (decodeBare w i).isCommandOrIllegal = true := by
  unfold decodeBare
  split
  · exact h
  · rfl

theorem decodeCommand_command (w : Word) : (decodeCommand w).isCommandOrIllegal = true := by
  unfold decodeCommand
  split
  · rfl
  · split
    case h_1 | h_4 => exact decodeAddressed_command w fun _ => rfl
    case h_2 | h_5 | h_11 => rfl
    all_goals exact decodeBare_command w rfl

/-- The class of a code is the class of its row: the row an event decodes to, class by class (R65, R91). -/
theorem decodeEvent_eq (m : StatusMap) (s : Byte) : decodeEvent m s = eventRow (classify m s) s := rfl

end Sys2Proof
end

