-- ==== Sys2Proof/Laws/Memory.lean ====
section
/-! SUPPORT. Storage keeps its canonical form: reset has it, and the one operation that writes keeps it. -/

namespace Sys2Proof.Machine

open Sys2Proof

/-- The cells after a write are the cell written and cells of before. -/
theorem Memory.mem_write {m : Memory} {i : Nat} {b : Byte} {x : Host.Cell} (h : x ∈ m.write i b) :
    x = (i, b) ∨ x ∈ m := by
  induction m with
  | nil => simpa [Memory.write] using h
  | cons y m ih =>
    unfold Memory.write at h
    split at h
    · simpa using h
    · split at h
      · rcases List.mem_cons.1 h with h | h
        · exact .inl h
        · exact .inr (List.mem_cons_of_mem _ h)
      · rcases List.mem_cons.1 h with h | h
        · exact .inr (h ▸ List.mem_cons_self)
        · exact (ih h).imp id (List.mem_cons_of_mem _)

theorem Memory.write_wf {m : Memory} (i : Nat) (b : Byte) (h : m.wf) : (m.write i b).wf := by
  induction m with
  | nil => simp [Memory.write, Memory.wf]
  | cons y m ih =>
    obtain ⟨h1, h2⟩ := List.pairwise_cons.1 h
    unfold Memory.write
    split
    · rename_i hlt
      refine List.pairwise_cons.2 ⟨fun x hx => ?_, h⟩
      rcases List.mem_cons.1 hx with rfl | hx
      · exact hlt
      · exact Nat.lt_trans hlt (h1 x hx)
    · split
      · rename_i _ he
        exact List.pairwise_cons.2 ⟨fun x hx => he ▸ h1 x hx, h2⟩
      · rename_i hlt he
        refine List.pairwise_cons.2 ⟨fun x hx => ?_, ih h2⟩
        rcases Memory.mem_write hx with rfl | hx
        · show y.1 < i
          omega
        · exact h1 x hx

/-- No storage is listed at reset, so both storages are canonical. -/
theorem reset_memories_wf : State.reset.tx.buf.wf ∧ State.reset.rx.buf.wf := by decide

end Sys2Proof.Machine
end

