-- ==== Sys2Proof/Laws/State.lean ====
section
/-!
SUPPORT. The fields of a state after each of the named updates: one lemma for each field of each update, true by
definition, so that no proof unfolds a record update.
-/

namespace Sys2Proof.Machine

open Sys2Proof

variable (s : State)

/-! ### enterEvent -/

@[simp] theorem State.enterEvent_tx (c : Byte) : (s.enterEvent c).tx = s.tx := rfl
@[simp] theorem State.enterEvent_rx (c : Byte) : (s.enterEvent c).rx = s.rx := rfl
@[simp] theorem State.enterEvent_btr (c : Byte) : (s.enterEvent c).btr = s.btr := rfl
@[simp] theorem State.enterEvent_status (c : Byte) : (s.enterEvent c).status = c := rfl
@[simp] theorem State.enterEvent_data (c : Byte) : (s.enterEvent c).data = s.data := rfl
@[simp] theorem State.enterEvent_hwstat (c : Byte) : (s.enterEvent c).hwstat = s.hwstat := rfl
@[simp] theorem State.enterEvent_int (c : Byte) : (s.enterEvent c).int = false := rfl
@[simp] theorem State.enterEvent_req (c : Byte) : (s.enterEvent c).req = s.req := rfl
@[simp] theorem State.enterEvent_stopp (c : Byte) : (s.enterEvent c).stopp = s.stopp := rfl
@[simp] theorem State.enterEvent_fault (c : Byte) : (s.enterEvent c).fault = s.fault := rfl
@[simp] theorem State.enterEvent_hpc (c : Byte) : (s.enterEvent c).hpc = s.hpc := rfl
@[simp] theorem State.enterEvent_hph (c : Byte) : (s.enterEvent c).hph = s.hph := rfl
@[simp] theorem State.enterEvent_out (c : Byte) : (s.enterEvent c).out = s.out := rfl
@[simp] theorem State.enterEvent_trace (c : Byte) : (s.enterEvent c).trace = s.trace := rfl
@[simp] theorem State.enterEvent_params (c : Byte) : (s.enterEvent c).params = s.params := rfl
@[simp] theorem State.enterEvent_schedule (c : Byte) : (s.enterEvent c).schedule = s.schedule := rfl
@[simp] theorem State.enterEvent_tick (c : Byte) : (s.enterEvent c).tick = s.tick := rfl

/-! ### raise -/

@[simp] theorem State.raise_tx (g : Agent) (k : FaultKind) : (s.raise g k).tx = s.tx := rfl
@[simp] theorem State.raise_rx (g : Agent) (k : FaultKind) : (s.raise g k).rx = s.rx := rfl
@[simp] theorem State.raise_btr (g : Agent) (k : FaultKind) : (s.raise g k).btr = s.btr := rfl
@[simp] theorem State.raise_status (g : Agent) (k : FaultKind) : (s.raise g k).status = s.status := rfl
@[simp] theorem State.raise_data (g : Agent) (k : FaultKind) : (s.raise g k).data = s.data := rfl
@[simp] theorem State.raise_hwstat (g : Agent) (k : FaultKind) : (s.raise g k).hwstat = s.hwstat := rfl
@[simp] theorem State.raise_int (g : Agent) (k : FaultKind) : (s.raise g k).int = s.int := rfl
@[simp] theorem State.raise_req (g : Agent) (k : FaultKind) : (s.raise g k).req = s.req := rfl
@[simp] theorem State.raise_stopp (g : Agent) (k : FaultKind) : (s.raise g k).stopp = s.stopp := rfl
@[simp] theorem State.raise_fault (g : Agent) (k : FaultKind) : (s.raise g k).fault = some ⟨k, g, s.hpc⟩ := rfl
@[simp] theorem State.raise_hpc (g : Agent) (k : FaultKind) : (s.raise g k).hpc = s.hpc := rfl
@[simp] theorem State.raise_hph (g : Agent) (k : FaultKind) : (s.raise g k).hph = s.hph := rfl
@[simp] theorem State.raise_out (g : Agent) (k : FaultKind) : (s.raise g k).out = s.out := rfl
@[simp] theorem State.raise_trace (g : Agent) (k : FaultKind) : (s.raise g k).trace = s.trace := rfl
@[simp] theorem State.raise_params (g : Agent) (k : FaultKind) : (s.raise g k).params = s.params := rfl
@[simp] theorem State.raise_schedule (g : Agent) (k : FaultKind) : (s.raise g k).schedule = s.schedule := rfl
@[simp] theorem State.raise_tick (g : Agent) (k : FaultKind) : (s.raise g k).tick = s.tick := rfl

/-! ### complete -/

@[simp] theorem State.complete_tx : s.complete.tx = s.tx := rfl
@[simp] theorem State.complete_rx : s.complete.rx = s.rx := rfl
@[simp] theorem State.complete_btr : s.complete.btr = s.btr := rfl
@[simp] theorem State.complete_status : s.complete.status = s.status := rfl
@[simp] theorem State.complete_data : s.complete.data = s.data := rfl
@[simp] theorem State.complete_hwstat : s.complete.hwstat = s.hwstat := rfl
@[simp] theorem State.complete_int : s.complete.int = s.int := rfl
@[simp] theorem State.complete_req : s.complete.req = s.req := rfl
@[simp] theorem State.complete_stopp : s.complete.stopp = s.stopp := rfl
@[simp] theorem State.complete_fault : s.complete.fault = s.fault := rfl
@[simp] theorem State.complete_hpc : s.complete.hpc = s.hpc + 1 := rfl
@[simp] theorem State.complete_hph : s.complete.hph = .zero := rfl
@[simp] theorem State.complete_out : s.complete.out = s.out := rfl
@[simp] theorem State.complete_trace : s.complete.trace = s.trace := rfl
@[simp] theorem State.complete_params : s.complete.params = s.params := rfl
@[simp] theorem State.complete_schedule : s.complete.schedule = s.schedule := rfl
@[simp] theorem State.complete_tick : s.complete.tick = s.tick := rfl

/-! ### emit -/

@[simp] theorem State.emit_tx (v : Word) : (s.emit v).tx = s.tx := rfl
@[simp] theorem State.emit_rx (v : Word) : (s.emit v).rx = s.rx := rfl
@[simp] theorem State.emit_btr (v : Word) : (s.emit v).btr = s.btr := rfl
@[simp] theorem State.emit_status (v : Word) : (s.emit v).status = s.status := rfl
@[simp] theorem State.emit_data (v : Word) : (s.emit v).data = s.data := rfl
@[simp] theorem State.emit_hwstat (v : Word) : (s.emit v).hwstat = s.hwstat := rfl
@[simp] theorem State.emit_int (v : Word) : (s.emit v).int = s.int := rfl
@[simp] theorem State.emit_req (v : Word) : (s.emit v).req = s.req := rfl
@[simp] theorem State.emit_stopp (v : Word) : (s.emit v).stopp = s.stopp := rfl
@[simp] theorem State.emit_fault (v : Word) : (s.emit v).fault = s.fault := rfl
@[simp] theorem State.emit_hpc (v : Word) : (s.emit v).hpc = s.hpc := rfl
@[simp] theorem State.emit_hph (v : Word) : (s.emit v).hph = s.hph := rfl
@[simp] theorem State.emit_out (v : Word) : (s.emit v).out = s.out ++ [v] := rfl
@[simp] theorem State.emit_trace (v : Word) : (s.emit v).trace = s.trace := rfl
@[simp] theorem State.emit_params (v : Word) : (s.emit v).params = s.params := rfl
@[simp] theorem State.emit_schedule (v : Word) : (s.emit v).schedule = s.schedule := rfl
@[simp] theorem State.emit_tick (v : Word) : (s.emit v).tick = s.tick := rfl

/-! ### engineAnswer -/

@[simp] theorem State.engineAnswer_tx (c d : Byte) : (s.engineAnswer c d).tx = s.tx := rfl
@[simp] theorem State.engineAnswer_rx (c d : Byte) : (s.engineAnswer c d).rx = s.rx := rfl
@[simp] theorem State.engineAnswer_btr (c d : Byte) : (s.engineAnswer c d).btr = s.btr := rfl
@[simp] theorem State.engineAnswer_status (c d : Byte) : (s.engineAnswer c d).status = s.status := rfl
@[simp] theorem State.engineAnswer_data (c d : Byte) : (s.engineAnswer c d).data = if isReceived (classify s.params.statusMap c) then d else s.data := rfl
@[simp] theorem State.engineAnswer_hwstat (c d : Byte) : (s.engineAnswer c d).hwstat = c := rfl
@[simp] theorem State.engineAnswer_int (c d : Byte) : (s.engineAnswer c d).int = true := rfl
@[simp] theorem State.engineAnswer_req (c d : Byte) : (s.engineAnswer c d).req = .none := rfl
@[simp] theorem State.engineAnswer_stopp (c d : Byte) : (s.engineAnswer c d).stopp = s.stopp := rfl
@[simp] theorem State.engineAnswer_fault (c d : Byte) : (s.engineAnswer c d).fault = s.fault := rfl
@[simp] theorem State.engineAnswer_hpc (c d : Byte) : (s.engineAnswer c d).hpc = s.hpc := rfl
@[simp] theorem State.engineAnswer_hph (c d : Byte) : (s.engineAnswer c d).hph = s.hph := rfl
@[simp] theorem State.engineAnswer_out (c d : Byte) : (s.engineAnswer c d).out = s.out := rfl
@[simp] theorem State.engineAnswer_trace (c d : Byte) : (s.engineAnswer c d).trace = s.trace := rfl
@[simp] theorem State.engineAnswer_params (c d : Byte) : (s.engineAnswer c d).params = s.params := rfl
@[simp] theorem State.engineAnswer_schedule (c d : Byte) : (s.engineAnswer c d).schedule = s.schedule := rfl
@[simp] theorem State.engineAnswer_tick (c d : Byte) : (s.engineAnswer c d).tick = s.tick := rfl

/-! ### engineDrop -/

@[simp] theorem State.engineDrop_tx : s.engineDrop.tx = s.tx := rfl
@[simp] theorem State.engineDrop_rx : s.engineDrop.rx = s.rx := rfl
@[simp] theorem State.engineDrop_btr : s.engineDrop.btr = s.btr := rfl
@[simp] theorem State.engineDrop_status : s.engineDrop.status = s.status := rfl
@[simp] theorem State.engineDrop_data : s.engineDrop.data = s.data := rfl
@[simp] theorem State.engineDrop_hwstat : s.engineDrop.hwstat = s.hwstat := rfl
@[simp] theorem State.engineDrop_int : s.engineDrop.int = s.int := rfl
@[simp] theorem State.engineDrop_req : s.engineDrop.req = .none := rfl
@[simp] theorem State.engineDrop_stopp : s.engineDrop.stopp = s.stopp := rfl
@[simp] theorem State.engineDrop_fault : s.engineDrop.fault = s.fault := rfl
@[simp] theorem State.engineDrop_hpc : s.engineDrop.hpc = s.hpc := rfl
@[simp] theorem State.engineDrop_hph : s.engineDrop.hph = s.hph := rfl
@[simp] theorem State.engineDrop_out : s.engineDrop.out = s.out := rfl
@[simp] theorem State.engineDrop_trace : s.engineDrop.trace = s.trace := rfl
@[simp] theorem State.engineDrop_params : s.engineDrop.params = s.params := rfl
@[simp] theorem State.engineDrop_schedule : s.engineDrop.schedule = s.schedule := rfl
@[simp] theorem State.engineDrop_tick : s.engineDrop.tick = s.tick := rfl

/-! ### engineStop -/

@[simp] theorem State.engineStop_tx : s.engineStop.tx = s.tx := rfl
@[simp] theorem State.engineStop_rx : s.engineStop.rx = s.rx := rfl
@[simp] theorem State.engineStop_btr : s.engineStop.btr = s.btr := rfl
@[simp] theorem State.engineStop_status : s.engineStop.status = s.status := rfl
@[simp] theorem State.engineStop_data : s.engineStop.data = s.data := rfl
@[simp] theorem State.engineStop_hwstat : s.engineStop.hwstat = s.hwstat := rfl
@[simp] theorem State.engineStop_int : s.engineStop.int = s.int := rfl
@[simp] theorem State.engineStop_req : s.engineStop.req = s.req := rfl
@[simp] theorem State.engineStop_stopp : s.engineStop.stopp = false := rfl
@[simp] theorem State.engineStop_fault : s.engineStop.fault = s.fault := rfl
@[simp] theorem State.engineStop_hpc : s.engineStop.hpc = s.hpc := rfl
@[simp] theorem State.engineStop_hph : s.engineStop.hph = s.hph := rfl
@[simp] theorem State.engineStop_out : s.engineStop.out = s.out := rfl
@[simp] theorem State.engineStop_trace : s.engineStop.trace = s.trace := rfl
@[simp] theorem State.engineStop_params : s.engineStop.params = s.params := rfl
@[simp] theorem State.engineStop_schedule : s.engineStop.schedule = s.schedule := rfl
@[simp] theorem State.engineStop_tick : s.engineStop.tick = s.tick := rfl

/-! ### expandHere changes the program alone, takeMove the schedule and the tick alone -/

@[simp] theorem State.expandHere_tx (i : Instr) : (s.expandHere i).tx = s.tx := rfl
@[simp] theorem State.expandHere_rx (i : Instr) : (s.expandHere i).rx = s.rx := rfl
@[simp] theorem State.expandHere_btr (i : Instr) : (s.expandHere i).btr = s.btr := rfl
@[simp] theorem State.expandHere_status (i : Instr) : (s.expandHere i).status = s.status := rfl
@[simp] theorem State.expandHere_data (i : Instr) : (s.expandHere i).data = s.data := rfl
@[simp] theorem State.expandHere_hwstat (i : Instr) : (s.expandHere i).hwstat = s.hwstat := rfl
@[simp] theorem State.expandHere_int (i : Instr) : (s.expandHere i).int = s.int := rfl
@[simp] theorem State.expandHere_req (i : Instr) : (s.expandHere i).req = s.req := rfl
@[simp] theorem State.expandHere_stopp (i : Instr) : (s.expandHere i).stopp = s.stopp := rfl
@[simp] theorem State.expandHere_fault (i : Instr) : (s.expandHere i).fault = s.fault := rfl
@[simp] theorem State.expandHere_hpc (i : Instr) : (s.expandHere i).hpc = s.hpc := rfl
@[simp] theorem State.expandHere_hph (i : Instr) : (s.expandHere i).hph = s.hph := rfl
@[simp] theorem State.expandHere_out (i : Instr) : (s.expandHere i).out = s.out := rfl
@[simp] theorem State.expandHere_trace (i : Instr) : (s.expandHere i).trace = s.trace := rfl
@[simp] theorem State.expandHere_schedule (i : Instr) : (s.expandHere i).schedule = s.schedule := rfl
@[simp] theorem State.expandHere_tick (i : Instr) : (s.expandHere i).tick = s.tick := rfl
@[simp] theorem State.expandHere_capacity (i : Instr) : (s.expandHere i).params.capacity = s.params.capacity := rfl
@[simp] theorem State.expandHere_btrWidth (i : Instr) : (s.expandHere i).params.btrWidth = s.params.btrWidth := rfl
@[simp] theorem State.expandHere_statusMap (i : Instr) : (s.expandHere i).params.statusMap = s.params.statusMap := rfl

@[simp] theorem State.takeMove_tx : s.takeMove.tx = s.tx := by cases h : s.schedule <;> simp [State.takeMove, h]
@[simp] theorem State.takeMove_rx : s.takeMove.rx = s.rx := by cases h : s.schedule <;> simp [State.takeMove, h]
@[simp] theorem State.takeMove_btr : s.takeMove.btr = s.btr := by cases h : s.schedule <;> simp [State.takeMove, h]
@[simp] theorem State.takeMove_status : s.takeMove.status = s.status := by cases h : s.schedule <;> simp [State.takeMove, h]
@[simp] theorem State.takeMove_data : s.takeMove.data = s.data := by cases h : s.schedule <;> simp [State.takeMove, h]
@[simp] theorem State.takeMove_hwstat : s.takeMove.hwstat = s.hwstat := by cases h : s.schedule <;> simp [State.takeMove, h]
@[simp] theorem State.takeMove_int : s.takeMove.int = s.int := by cases h : s.schedule <;> simp [State.takeMove, h]
@[simp] theorem State.takeMove_req : s.takeMove.req = s.req := by cases h : s.schedule <;> simp [State.takeMove, h]
@[simp] theorem State.takeMove_stopp : s.takeMove.stopp = s.stopp := by cases h : s.schedule <;> simp [State.takeMove, h]
@[simp] theorem State.takeMove_fault : s.takeMove.fault = s.fault := by cases h : s.schedule <;> simp [State.takeMove, h]
@[simp] theorem State.takeMove_hpc : s.takeMove.hpc = s.hpc := by cases h : s.schedule <;> simp [State.takeMove, h]
@[simp] theorem State.takeMove_hph : s.takeMove.hph = s.hph := by cases h : s.schedule <;> simp [State.takeMove, h]
@[simp] theorem State.takeMove_out : s.takeMove.out = s.out := by cases h : s.schedule <;> simp [State.takeMove, h]
@[simp] theorem State.takeMove_trace : s.takeMove.trace = s.trace := by cases h : s.schedule <;> simp [State.takeMove, h]
@[simp] theorem State.takeMove_params : s.takeMove.params = s.params := by cases h : s.schedule <;> simp [State.takeMove, h]

end Sys2Proof.Machine
end

