-- ==== Sys2Proof/Laws/Ops.lean ====
section
/-!
SUPPORT. One lemma for each shared operation that says everything it can do; proofs cite these and unfold no operation.
-/

namespace Sys2Proof.Machine

open Sys2Proof

/-! ### Flags -/

theorem Ring.isEmpty_true (r : Ring) : r.isEmpty = true ↔ r.head = r.tail ∧ r.last = .read := by
  simp [Ring.isEmpty]

theorem Ring.isEmpty_false (r : Ring) : r.isEmpty = false ↔ ¬ (r.head = r.tail ∧ r.last = .read) := by
  rw [← Ring.isEmpty_true]; simp

theorem Ring.isFull_true (r : Ring) : r.isFull = true ↔ r.head = r.tail ∧ r.last = .write := by
  simp [Ring.isFull]

theorem Ring.isFull_false (r : Ring) : r.isFull = false ↔ ¬ (r.head = r.tail ∧ r.last = .write) := by
  rw [← Ring.isFull_true]; simp

/-- An empty ring is not full: a push into it succeeds. -/
theorem Ring.isFull_of_isEmpty {r : Ring} (h : r.isEmpty = true) : r.isFull = false := by
  obtain ⟨_, hl⟩ := r.isEmpty_true.1 h
  simp [Ring.isFull, hl]

theorem State.engineBusy_false (s : State) :
    s.engineBusy = false ↔ s.req = .none ∧ s.int = false ∧ s.stopp = false := by
  simp [State.engineBusy, and_assoc]

theorem State.engineBusy_true (s : State) :
    s.engineBusy = true ↔ ¬ (s.req = .none ∧ s.int = false ∧ s.stopp = false) := by
  rw [← State.engineBusy_false]; simp

/-! ### Ring primitives -/

theorem Ring.pushBack_error {c : Nat} {r : Ring} {b : Byte} {k : FaultKind} (h : r.pushBack c b = .error k) :
    r.isFull = true ∧ k = .rbOverflow := by
  unfold Ring.pushBack at h
  split at h
  · exact ⟨‹_›, by simpa using h.symm⟩
  · simp at h

theorem Ring.pushBack_ok {c : Nat} {r r' : Ring} {b : Byte} (h : r.pushBack c b = .ok r') :
    r.isFull = false ∧
      r' = { buf := r.buf.write r.head b, head := (r.head + 1) % c, tail := r.tail, last := .write } := by
  unfold Ring.pushBack at h
  split at h
  · simp at h
  · exact ⟨Bool.eq_false_iff.2 ‹_›, by simpa using h.symm⟩

theorem Ring.popFront_error {w : Buffer} {c : Nat} {r : Ring} {k : FaultKind} (h : r.popFront w c = .error k) :
    r.isEmpty = true ∧ k = .rbUnderflow := by
  unfold Ring.popFront at h
  split at h
  · exact ⟨‹_›, by simpa using h.symm⟩
  · simp at h

theorem Ring.popFront_ok {w : Buffer} {c : Nat} {r r' : Ring} {b : Byte} (h : r.popFront w c = .ok (b, r')) :
    r.isEmpty = false ∧ b = r.slot w r.tail ∧ r' = { r with tail := (r.tail + 1) % c, last := .read } := by
  unfold Ring.popFront at h
  split at h
  · simp at h
  · simp only [Except.ok.injEq, Prod.mk.injEq] at h
    exact ⟨Bool.eq_false_iff.2 ‹_›, h.1.symm, h.2.symm⟩

theorem State.dropTx_error {s : State} {k : FaultKind} (h : s.dropTx = .error k) :
    s.tx.isEmpty = true ∧ k = .rbUnderflow := by
  unfold State.dropTx at h
  split at h
  · simp at h
  · rename_i e
    simp only [Except.error.injEq] at h
    exact h ▸ Ring.popFront_error e

theorem State.dropTx_ok {s t : State} (h : s.dropTx = .ok t) :
    s.tx.isEmpty = false ∧
      t = { s with tx := { s.tx with tail := (s.tx.tail + 1) % s.params.capacity, last := .read } } := by
  unfold State.dropTx at h
  split at h
  · rename_i e
    obtain ⟨h1, -, h3⟩ := Ring.popFront_ok e
    simp only [Except.ok.injEq] at h
    exact ⟨h1, by rw [← h, h3]⟩
  · simp at h

theorem State.pushRx_error {s : State} {b : Byte} {k : FaultKind} (h : s.pushRx b = .error k) :
    s.rx.isFull = true ∧ k = .rbOverflow := by
  unfold State.pushRx at h
  split at h
  · simp at h
  · rename_i e
    simp only [Except.error.injEq] at h
    exact h ▸ Ring.pushBack_error e

theorem State.pushRx_ok {s t : State} {b : Byte} (h : s.pushRx b = .ok t) :
    s.rx.isFull = false ∧
      t = { s with
        rx := { buf := s.rx.buf.write s.rx.head b, head := (s.rx.head + 1) % s.params.capacity,
                tail := s.rx.tail, last := .write } } := by
  unfold State.pushRx at h
  split at h
  · rename_i e
    obtain ⟨h1, h2⟩ := Ring.pushBack_ok e
    simp only [Except.ok.injEq] at h
    exact ⟨h1, by rw [← h, h2]⟩
  · simp at h

/-! ### Steps -/

/-- A step is its body, or the state before it plus FAULT. -/
theorem atomic_next {g : Agent} {s t : State} {body : Except FaultKind State} :
    atomic g s body = .next t ↔ body = .ok t ∨ ∃ k, body = .error k ∧ t = s.raise g k := by
  cases body with
  | ok u => simp [atomic]
  | error k => simp [atomic, eq_comm]

/-- A waiting command is its step, or nothing at all. -/
theorem waitUntil_next {p : Bool} {s t : State} {act : Result} :
    waitUntil p s act = .next t ↔ (p = true ∧ act = .next t) ∨ (p = false ∧ t = s) := by
  cases p <;> simp [waitUntil, eq_comm]

/-! ### The engine interface -/

theorem State.issue_error {s : State} {g : Agent} {a : Action} {k : FaultKind} (h : s.issue g a = .error k) :
    s.engineBusy = true ∧ k = .requestCollision := by
  unfold State.issue at h
  split at h
  · exact ⟨‹_›, by simpa using h.symm⟩
  · cases a <;> simp at h

/-- What `issue` does when it does not fault: TRACE gains the request; REQ or STOPP takes it. -/
theorem State.issue_ok {s t : State} {g : Agent} {a : Action} (h : s.issue g a = .ok t) :
    s.engineBusy = false ∧
      t = { s with
        trace := s.trace ++ [⟨g, a, s.data⟩]
        req := a.leavesReq
        stopp := decide (a = .stop) } := by
  unfold State.issue at h
  split at h
  · simp at h
  · have hb : s.engineBusy = false := Bool.eq_false_iff.2 ‹_›
    obtain ⟨h1, h2, h3⟩ := s.engineBusy_false.1 hb
    refine ⟨hb, ?_⟩
    cases a <;> simp only [Except.ok.injEq] at h <;> subst h <;> simp [Action.leavesReq, h1, h3]

theorem State.issue_idle {s : State} (g : Agent) (a : Action) (h : s.engineBusy = false) :
    s.issue g a = .ok { s with
        trace := s.trace ++ [⟨g, a, s.data⟩]
        req := a.leavesReq
        stopp := decide (a = .stop) } := by
  cases e : s.issue g a with
  | ok t => rw [(State.issue_ok e).2]
  | error k => simp [(State.issue_error e).1] at h

theorem State.issue_busy {s : State} (g : Agent) (a : Action) (h : s.engineBusy = true) :
    s.issue g a = .error .requestCollision := by
  simp [State.issue, h]

/-! ### The sequencer -/

/-- The request of `nextAction` (R92). -/
def State.nextRequest (s : State) : Action :=
  if s.tx.isEmpty then (if s.btr > 0 then (if s.btr = 1 then .nack else .cont) else .release) else .cont

theorem State.nextRequest_ne_stop (s : State) : s.nextRequest ≠ .stop := by
  unfold State.nextRequest; (repeat' split) <;> simp

/-- DATA when `nextAction` issues its request (R92). -/
def State.nextData (s : State) : Byte :=
  if s.tx.isEmpty then s.data else s.tx.slot .tx s.tx.tail

/-- `nextAction` is one request, with the front byte of TX in DATA when there is one. -/
theorem State.nextAction_eq (s : State) :
    s.nextAction = ({ s with data := s.nextData } : State).issue .seq s.nextRequest := by
  unfold State.nextAction State.nextRequest State.nextData
  by_cases h : s.tx.isEmpty = true
  · simp only [h, if_true]
    split <;> [split; skip] <;> rfl
  · simp [h, Ring.peekFront]

theorem State.nextAction_ok {s t : State} (h : s.nextAction = .ok t) :
    s.engineBusy = false ∧
      t = { s with
        data := s.nextData
        trace := s.trace ++ [⟨.seq, s.nextRequest, s.nextData⟩]
        req := s.nextRequest.leavesReq
        stopp := false } := by
  rw [State.nextAction_eq] at h
  obtain ⟨h1, h2⟩ := State.issue_ok h
  refine ⟨h1, h2.trans ?_⟩
  simp [s.nextRequest_ne_stop]

theorem State.nextAction_error {s : State} {k : FaultKind} (h : s.nextAction = .error k) :
    s.engineBusy = true ∧ k = .requestCollision := by
  rw [State.nextAction_eq] at h
  have := State.issue_error h
  exact this

theorem State.nextAction_idle {s : State} (h : s.engineBusy = false) :
    s.nextAction = .ok { s with
        data := s.nextData
        trace := s.trace ++ [⟨.seq, s.nextRequest, s.nextData⟩]
        req := s.nextRequest.leavesReq
        stopp := false } := by
  cases e : s.nextAction with
  | ok t => rw [(State.nextAction_ok e).2]
  | error k => simp [(State.nextAction_error e).1] at h

theorem State.nextAction_busy {s : State} (h : s.engineBusy = true) :
    s.nextAction = .error .requestCollision := by
  rw [State.nextAction_eq]
  exact State.issue_busy _ _ h

/-- The acknowledgement R98 asks for, from BTR after the byte is counted off. -/
def acknowledgement (btr : Nat) : Action := if btr > 1 then .ack else if btr = 1 then .nack else .release

theorem State.acknowledge_eq (s : State) : s.acknowledge = s.issue .seq (acknowledgement s.btr) := by
  unfold State.acknowledge acknowledgement
  split
  · rfl
  · split <;> rfl

theorem acknowledgement_ne_stop (n : Nat) : acknowledgement n ≠ .stop := by
  unfold acknowledgement; (repeat' split) <;> simp

/-- What storing a received byte does when it does not fault (R98). -/
theorem State.storeReceived_ok {s t : State} (h : s.storeReceived = .ok t) :
    (s.btr = 0 ∧ t = s) ∨
      (0 < s.btr ∧ s.rx.isFull = false ∧
        t = { s with
          rx := { buf := s.rx.buf.write s.rx.head s.data, head := (s.rx.head + 1) % s.params.capacity,
                  tail := s.rx.tail, last := .write }
          btr := s.btr - 1 }) := by
  unfold State.storeReceived at h
  split at h
  · split at h
    · simp at h
    · rename_i e
      obtain ⟨h1, h2⟩ := State.pushRx_ok e
      simp only [Except.ok.injEq] at h
      exact .inr ⟨‹_›, h1, by rw [← h, h2]⟩
  · simp only [Except.ok.injEq] at h
    exact .inl ⟨by omega, h.symm⟩

theorem State.storeReceived_error {s : State} {k : FaultKind} (h : s.storeReceived = .error k) :
    0 < s.btr ∧ s.rx.isFull = true ∧ k = .rbOverflow := by
  unfold State.storeReceived at h
  split at h
  · split at h
    · rename_i e
      obtain ⟨h1, h2⟩ := State.pushRx_error e
      simp only [Except.error.injEq] at h
      exact ⟨‹_›, h1, h ▸ h2⟩
    · simp at h
  · simp at h

end Sys2Proof.Machine
end

