-- ==== Sys2Proof/Laws/PerInstr.lean ====
section
/-!
SUPPORT. A law said of every instruction, one lemma for each constructor: what an instruction expands to (30_encoding.md R63)
is well-formed when the instruction is.
-/

namespace Sys2Proof.Laws.ExpandWellFormed

open Sys2Proof

/-- Every instruction that `expand` gives for a well-formed instruction is well-formed, under any status map. -/
def Statement (i : Instr) : Prop := ∀ m : StatusMap, i.wellFormed m = true → ∀ j ∈ expand i, j.wellFormed m = true

/-- An instruction that expands to itself alone satisfies the law. -/
theorem of_self {i : Instr} (h : expand i = [i]) : Statement i := by
  intro m hi j hj
  rw [h, List.mem_singleton] at hj
  exact hj ▸ hi

theorem beginTx (a : Addr) : Statement (.beginTx a) := of_self rfl
theorem write (b : Byte) : Statement (.write b) := of_self rfl
theorem endTx : Statement .endTx := of_self rfl
theorem beginRx (a : Addr) : Statement (.beginRx a) := of_self rfl
theorem requestBytes (n : Byte) : Statement (.requestBytes n) := of_self rfl
theorem available : Statement .available := of_self rfl
theorem read : Statement .read := of_self rfl
theorem endRx : Statement .endRx := of_self rfl
theorem getStatus : Statement .getStatus := of_self rfl
theorem getBtr : Statement .getBtr := of_self rfl
theorem requestFrom (a : Addr) (n : Byte) : Statement (.requestFrom a n) := by
  intro m _ j hj
  simp only [expand, List.mem_cons, List.not_mem_nil, or_false] at hj
  rcases hj with rfl | rfl | rfl | rfl <;> rfl
theorem illegal (w : Word) : Statement (.illegal w) := of_self rfl
theorem evStart (s : Byte) : Statement (.evStart s) := of_self rfl
theorem evRepStart (s : Byte) : Statement (.evRepStart s) := of_self rfl
theorem evSlawAck (s : Byte) : Statement (.evSlawAck s) := of_self rfl
theorem evSlawNack (s : Byte) : Statement (.evSlawNack s) := of_self rfl
theorem evDtxAck (s : Byte) : Statement (.evDtxAck s) := of_self rfl
theorem evDtxNack (s : Byte) : Statement (.evDtxNack s) := of_self rfl
theorem evSlarAck (s : Byte) : Statement (.evSlarAck s) := of_self rfl
theorem evSlarNack (s : Byte) : Statement (.evSlarNack s) := of_self rfl
theorem evDrxAck (s : Byte) : Statement (.evDrxAck s) := of_self rfl
theorem evDrxNack (s : Byte) : Statement (.evDrxNack s) := of_self rfl
theorem evOther (s : Byte) : Statement (.evOther s) := of_self rfl

end Sys2Proof.Laws.ExpandWellFormed
end

