-- ==== Sys2Proof/Laws/Steps.lean ====
section
/-!
SUPPORT. Said once, what a step of each agent can do: every invariant is a case analysis over these.
-/

namespace Sys2Proof.Machine

open Sys2Proof

/-- TX after a push of `b`. -/
def State.txPushed (s : State) (b : Byte) : Ring :=
  { buf := s.tx.buf.write s.tx.head b, head := (s.tx.head + 1) % s.params.capacity, tail := s.tx.tail, last := .write }

/-- TX after a pop. -/
def State.txPopped (s : State) : Ring :=
  { s.tx with tail := (s.tx.tail + 1) % s.params.capacity, last := .read }

/-- RX after a push of `b`. -/
def State.rxPushed (s : State) (b : Byte) : Ring :=
  { buf := s.rx.buf.write s.rx.head b, head := (s.rx.head + 1) % s.params.capacity, tail := s.rx.tail, last := .write }

/-- RX after a pop. -/
def State.rxPopped (s : State) : Ring :=
  { s.rx with tail := (s.rx.tail + 1) % s.params.capacity, last := .read }

/-- What HOST's step at the command `i` can do to `s` (42_host_commands.md). -/
inductive HostStep (s : State) : Instr → State → Prop where
  | waits (i : Instr) : HostStep s i s
  | collides (i : Instr) : s.engineBusy = true → HostStep s i (s.raise .host .requestCollision)
  | overflows (n : Byte) : HostStep s (.requestBytes n) (s.raise .host .btrOverflow)
  | illegal (w : Word) : HostStep s (.illegal w) (s.raise .host .illegalCommand)
  | begins (i : Instr) (b : Byte) : ((∃ a, i = .beginTx a) ∨ (∃ a, i = .beginRx a)) → s.tx.isEmpty = true →
      s.engineBusy = false →
      HostStep s i { s with
        tx := s.txPushed b, trace := s.trace ++ [⟨.host, .start, s.data⟩], req := .start, hpc := s.hpc + 1, hph := .zero }
  | queues (b : Byte) : s.tx.isFull = false → s.tx.isEmpty = false →
      HostStep s (.write b) { s with tx := s.txPushed b, hpc := s.hpc + 1, hph := .zero }
  | kicks (b : Byte) : s.tx.isEmpty = true → s.engineBusy = false →
      HostStep s (.write b) { s with
        tx := s.txPushed b, data := b, trace := s.trace ++ [⟨.host, .cont, b⟩], req := .cont,
        hpc := s.hpc + 1, hph := .zero }
  | stops (i : Instr) : ((i = .endTx ∧ s.tx.isEmpty = true) ∨ (i = .endRx ∧ s.btr = 0)) → s.hph = .zero →
      s.engineBusy = false →
      HostStep s i { s with trace := s.trace ++ [⟨.host, .stop, s.data⟩], stopp := true, hph := .one }
  | endsTx : s.hph = .one → s.stopp = false →
      HostStep s .endTx { s with out := s.out ++ [byteResult s.status], hpc := s.hpc + 1, hph := .zero }
  | endsRx : s.hph = .one → s.stopp = false → HostStep s .endRx { s with hpc := s.hpc + 1, hph := .zero }
  | requests (n : Byte) : s.btr + n.toNat ≤ btrMax s.params →
      HostStep s (.requestBytes n) { s with btr := s.btr + n.toNat, hpc := s.hpc + 1, hph := .zero }
  | reports (i : Instr) (v : Word) :
      ((i = .available ∧ v = countResult (s.rx.count s.params.capacity)) ∨ (i = .getStatus ∧ v = byteResult s.status) ∨
        (i = .getBtr ∧ v = countResult s.btr) ∨ (i = .read ∧ s.rx.isEmpty = true ∧ v = 0x0000)) →
      HostStep s i { s with out := s.out ++ [v], hpc := s.hpc + 1, hph := .zero }
  | takes : s.rx.isEmpty = false →
      HostStep s .read { s with
        rx := s.rxPopped, out := s.out ++ [byteResult (s.rx.slot .rx s.rx.tail)], hpc := s.hpc + 1, hph := .zero }

theorem issueStop_next {s t : State} (h : issueStop s = .next t) :
    (s.engineBusy = true ∧ t = s.raise .host .requestCollision) ∨
      (s.engineBusy = false ∧
        t = { s with trace := s.trace ++ [⟨.host, .stop, s.data⟩], stopp := true, hph := .one }) := by
  replace h := atomic_next.1 h
  obtain h | ⟨k, h, rfl⟩ := h
  · split at h
    · simp at h
    · rename_i u e
      obtain ⟨hb, hu⟩ := State.issue_ok e
      obtain ⟨h1, -, -⟩ := s.engineBusy_false.1 hb
      simp only [Except.ok.injEq] at h
      exact .inr ⟨hb, by rw [← h, hu]; simp [Action.leavesReq, h1]⟩
  · split at h
    · rename_i e
      simp only [Except.error.injEq] at h
      obtain ⟨hb, hk⟩ := State.issue_error e
      exact .inl ⟨hb, by rw [← h, hk]⟩
    · simp at h

theorem beginTransaction_next {a : Addr} {d : Direction} {s t : State} (h : beginTransaction a d s = .next t) :
    t = s ∨ (s.engineBusy = true ∧ t = s.raise .host .requestCollision) ∨
      (s.tx.isEmpty = true ∧ s.engineBusy = false ∧
        t = { s with
          tx := s.txPushed (slaByte a d), trace := s.trace ++ [⟨.host, .start, s.data⟩], req := .start,
          hpc := s.hpc + 1, hph := .zero }) := by
  obtain ⟨he, h⟩ | ⟨-, rfl⟩ := waitUntil_next.1 h
  · have hp : s.pushTx (slaByte a d) = .ok { s with tx := s.txPushed (slaByte a d) } := by
      simp [State.pushTx, Ring.pushBack, Ring.isFull_of_isEmpty he, State.txPushed]
    have hbusy : ({ s with tx := s.txPushed (slaByte a d) } : State).engineBusy = s.engineBusy := rfl
    rw [hp] at h
    cases hb : s.engineBusy with
    | true =>
      simp only [State.issue_busy _ _ (hbusy.trans hb)] at h
      simp only [atomic, Host.Outcome.next.injEq] at h
      exact .inr (.inl ⟨rfl, h.symm⟩)
    | false =>
      have h3 := (s.engineBusy_false.1 hb).2.2
      simp only [State.issue_idle _ _ (hbusy.trans hb)] at h
      simp only [atomic, Host.Outcome.next.injEq] at h
      exact .inr (.inr ⟨he, rfl, by rw [← h]; simp [State.complete, Action.leavesReq, h3]⟩)
  · exact .inl rfl

/-- HOST's step at a command that a word can decode to is one of the cases of `HostStep`. -/
theorem exec_hostStep {i : Instr} {s t : State} (hi : i.isCommandOrIllegal = true) (h : exec i s = .next t) :
    HostStep s i t := by
  cases i <;> simp only [Instr.isCommandOrIllegal, Bool.false_eq_true] at hi
  case beginTx a =>
    obtain rfl | ⟨hb, rfl⟩ | ⟨he, hb, rfl⟩ := beginTransaction_next h
    · exact .waits _
    · exact .collides _ hb
    · exact .begins _ _ (.inl ⟨_, rfl⟩) he hb
  case beginRx a =>
    obtain rfl | ⟨hb, rfl⟩ | ⟨he, hb, rfl⟩ := beginTransaction_next h
    · exact .waits _
    · exact .collides _ hb
    · exact .begins _ _ (.inr ⟨_, rfl⟩) he hb
  case write b =>
    obtain ⟨hf, h⟩ | ⟨-, rfl⟩ := waitUntil_next.1 h
    · have hf : s.tx.isFull = false := by simpa using hf
      have hp : s.pushTx b = .ok { s with tx := s.txPushed b } := by
        simp [State.pushTx, Ring.pushBack, hf, State.txPushed]
      have hbusy : ({ s with tx := s.txPushed b, data := b } : State).engineBusy = s.engineBusy := rfl
      rw [hp] at h
      cases he : s.tx.isEmpty with
      | false =>
        simp only [he, Bool.false_eq_true, if_false, atomic, Host.Outcome.next.injEq] at h
        exact h ▸ .queues b hf he
      | true =>
        cases hb : s.engineBusy with
        | true =>
          simp only [he, if_true, State.issue_busy _ _ (hbusy.trans hb), atomic, Host.Outcome.next.injEq] at h
          exact h ▸ .collides _ hb
        | false =>
          have h3 := (s.engineBusy_false.1 hb).2.2
          simp only [he, if_true, State.issue_idle _ _ (hbusy.trans hb), atomic, Host.Outcome.next.injEq] at h
          rw [← h]
          simpa [State.complete, Action.leavesReq, h3] using HostStep.kicks b he hb
    · exact .waits _
  case endTx =>
    simp only [exec, execEndTx] at h
    split at h
    · rename_i hp
      obtain ⟨he, h⟩ | ⟨-, rfl⟩ := waitUntil_next.1 h
      · obtain ⟨hb, rfl⟩ | ⟨hb, rfl⟩ := issueStop_next h
        · exact .collides _ hb
        · exact .stops _ (.inl ⟨rfl, he⟩) hp hb
      · exact .waits _
    · rename_i hp
      obtain ⟨hs, h⟩ | ⟨-, rfl⟩ := waitUntil_next.1 h
      · simp only [observe, atomic, Host.Outcome.next.injEq] at h
        exact h ▸ .endsTx hp (by simpa using hs)
      · exact .waits _
  case endRx =>
    simp only [exec, execEndRx] at h
    split at h
    · rename_i hp
      obtain ⟨he, h⟩ | ⟨-, rfl⟩ := waitUntil_next.1 h
      · obtain ⟨hb, rfl⟩ | ⟨hb, rfl⟩ := issueStop_next h
        · exact .collides _ hb
        · exact .stops _ (.inr ⟨rfl, by simpa using he⟩) hp hb
      · exact .waits _
    · rename_i hp
      obtain ⟨hs, h⟩ | ⟨-, rfl⟩ := waitUntil_next.1 h
      · simp only [atomic, Host.Outcome.next.injEq] at h
        exact h ▸ .endsRx hp (by simpa using hs)
      · exact .waits _
  case requestBytes n =>
    simp only [exec, execRequestBytes, countOperand] at h
    by_cases hn : s.btr + n.toNat > btrMax s.params
    · simp only [hn, if_true, atomic, Host.Outcome.next.injEq] at h
      exact h ▸ .overflows n
    · simp only [hn, if_false, atomic, Host.Outcome.next.injEq] at h
      exact h ▸ .requests n (by omega)
  case available =>
    simp only [exec, execAvailable, observe, atomic, Host.Outcome.next.injEq] at h
    exact h ▸ .reports _ _ (.inl ⟨rfl, rfl⟩)
  case getStatus =>
    simp only [exec, execGetStatus, observe, atomic, Host.Outcome.next.injEq] at h
    exact h ▸ .reports _ _ (.inr (.inl ⟨rfl, rfl⟩))
  case getBtr =>
    simp only [exec, execGetBtr, observe, atomic, Host.Outcome.next.injEq] at h
    exact h ▸ .reports _ _ (.inr (.inr (.inl ⟨rfl, rfl⟩)))
  case read =>
    simp only [exec, execRead] at h
    cases he : s.rx.isEmpty with
    | true =>
      simp only [he, if_true, atomic, Host.Outcome.next.injEq] at h
      exact h ▸ .reports _ _ (.inr (.inr (.inr ⟨rfl, he, rfl⟩)))
    | false =>
      simp only [he, Ring.popFront, Bool.false_eq_true, if_false, atomic, Host.Outcome.next.injEq] at h
      exact h ▸ .takes he
  case illegal w =>
    simp only [exec, execIllegal, atomic, Host.Outcome.next.injEq] at h
    exact h ▸ .illegal w

/-- What SEQ's step at the event of class `cls` and code `c` can do to `s` (43_sequencer.md R91-R99). -/
inductive SeqStep (s : State) (cls : EventClass) (c : Byte) : State → Prop where
  | collides : (s.req ≠ .none ∨ s.stopp = true) → SeqStep s cls c (s.raise .seq .requestCollision)
  | underflows : s.tx.isEmpty = true → SeqStep s cls c (s.raise .seq .rbUnderflow)
  | overflows : 0 < s.btr → s.rx.isFull = true → SeqStep s cls c (s.raise .seq .rbOverflow)
  | starts (a : Action) (d : Byte) : (cls = .start ∨ cls = .repStart) → s.req = .none → s.stopp = false →
      a = s.nextRequest → d = s.nextData →
      SeqStep s cls c { s with
        status := c, int := false, stopp := false, data := d, trace := s.trace ++ [⟨.seq, a, d⟩], req := a.leavesReq }
  | sent (n : Nat) (a : Action) (d : Byte) : cls ≠ .other → cls ≠ .drxAck → cls ≠ .drxNack →
      n = (if cls = .slarNack then 0 else s.btr) → s.tx.isEmpty = false → s.req = .none → s.stopp = false →
      a = ({ s with tx := s.txPopped, btr := n } : State).nextRequest →
      d = ({ s with tx := s.txPopped, btr := n } : State).nextData →
      SeqStep s cls c { s with
        status := c, int := false, stopp := false, tx := s.txPopped, btr := n, data := d, trace := s.trace ++ [⟨.seq, a, d⟩],
        req := a.leavesReq }
  | stores : (cls = .drxAck ∨ cls = .drxNack) → 0 < s.btr → s.rx.isFull = false → s.req = .none → s.stopp = false →
      SeqStep s cls c { s with
        status := c, int := false, stopp := false, rx := s.rxPushed s.data, btr := s.btr - 1,
        trace := s.trace ++ [⟨.seq, acknowledgement (s.btr - 1), s.data⟩],
        req := (acknowledgement (s.btr - 1)).leavesReq }
  | discards : (cls = .drxAck ∨ cls = .drxNack) → s.btr = 0 → s.req = .none → s.stopp = false →
      SeqStep s cls c { s with
        status := c, int := false, stopp := false, trace := s.trace ++ [⟨.seq, .release, s.data⟩], req := .none }
  | clears : cls = .other → s.req = .none → s.stopp = false →
      SeqStep s cls c { s with
        status := c, int := false, stopp := false, trace := s.trace ++ [⟨.seq, .clear, s.data⟩], req := .clear }

theorem engineBusy_enter {s : State} {c : Byte} (h : (s.enterEvent c).engineBusy = true) : s.req ≠ .none ∨ s.stopp = true := by
  have := (State.engineBusy_true _).1 h
  simp only [State.enterEvent_req, State.enterEvent_int, State.enterEvent_stopp, true_and] at this
  by_cases hr : s.req = .none
  · exact .inr (by simpa [hr] using this)
  · exact .inl hr

theorem engineFree_enter {s : State} {c : Byte} (h : (s.enterEvent c).engineBusy = false) :
    s.req = .none ∧ s.stopp = false := by
  obtain ⟨h1, -, h3⟩ := (State.engineBusy_false _).1 h
  exact ⟨h1, h3⟩

theorem sentRow_seqStep {cls : EventClass} {c : Byte} {s t : State} (h1 : cls ≠ .other) (h2 : cls ≠ .drxAck)
    (h3 : cls ≠ .drxNack) (h4 : cls ≠ .slarNack) (h : sentRow c s = .next t) : SeqStep s cls c t := by
  replace h := atomic_next.1 h
  obtain h | ⟨k, h, rfl⟩ := h
  · split at h
    · simp at h
    · rename_i u e
      obtain ⟨he, rfl⟩ := State.dropTx_ok e
      obtain ⟨hb, rfl⟩ := State.nextAction_ok h
      obtain ⟨hr, hs⟩ := engineFree_enter (s := s) (c := c) hb
      exact .sent s.btr _ _ h1 h2 h3 (by simp [h4]) he hr hs rfl rfl
  · split at h
    · rename_i e
      simp only [Except.error.injEq] at h
      obtain ⟨he, rfl⟩ := State.dropTx_error e
      exact h ▸ .underflows he
    · rename_i u e
      obtain ⟨he, rfl⟩ := State.dropTx_ok e
      obtain ⟨hb, rfl⟩ := State.nextAction_error h
      exact .collides (engineBusy_enter (s := s) (c := c) hb)

theorem readRefusedRow_seqStep {c : Byte} {s t : State} (h : readRefusedRow c s = .next t) : SeqStep s .slarNack c t := by
  replace h := atomic_next.1 h
  obtain h | ⟨k, h, rfl⟩ := h
  · split at h
    · simp at h
    · rename_i u e
      obtain ⟨he, rfl⟩ := State.dropTx_ok e
      obtain ⟨hb, rfl⟩ := State.nextAction_ok h
      obtain ⟨hr, hs⟩ := engineFree_enter (s := s) (c := c) hb
      exact .sent 0 _ _ (by simp) (by simp) (by simp) (by simp) he hr hs rfl rfl
  · split at h
    · rename_i e
      simp only [Except.error.injEq] at h
      obtain ⟨he, rfl⟩ := State.dropTx_error e
      exact h ▸ .underflows he
    · rename_i u e
      obtain ⟨he, rfl⟩ := State.dropTx_ok e
      obtain ⟨hb, rfl⟩ := State.nextAction_error h
      exact .collides (engineBusy_enter (s := s) (c := c) hb)

theorem startRow_seqStep {cls : EventClass} {c : Byte} {s t : State} (hc : cls = .start ∨ cls = .repStart)
    (h : startRow c s = .next t) : SeqStep s cls c t := by
  replace h := atomic_next.1 h
  obtain h | ⟨k, h, rfl⟩ := h
  · obtain ⟨hb, rfl⟩ := State.nextAction_ok h
    obtain ⟨hr, hs⟩ := engineFree_enter hb
    exact .starts _ _ hc hr hs rfl rfl
  · obtain ⟨hb, rfl⟩ := State.nextAction_error h
    exact .collides (engineBusy_enter hb)

theorem receivedRow_seqStep {cls : EventClass} {c : Byte} {s t : State} (hc : cls = .drxAck ∨ cls = .drxNack)
    (h : receivedRow c s = .next t) : SeqStep s cls c t := by
  replace h := atomic_next.1 h
  obtain h | ⟨k, h, rfl⟩ := h
  · split at h
    · simp at h
    · rename_i u e
      rw [State.acknowledge_eq] at h
      obtain ⟨hb, rfl⟩ := State.issue_ok h
      obtain ⟨h0, rfl⟩ | ⟨h0, hf, rfl⟩ := State.storeReceived_ok e
      · obtain ⟨hr, hs⟩ := engineFree_enter hb
        have h0 : s.btr = 0 := h0
        have := SeqStep.discards (s := s) (c := c) hc h0 hr hs
        simpa [State.enterEvent, acknowledgement, h0, hs, Action.leavesReq] using this
      · obtain ⟨hr, hs⟩ := engineFree_enter (s := s) (c := c) hb
        have := SeqStep.stores (s := s) (c := c) hc h0 hf hr hs
        have hne := acknowledgement_ne_stop (s.btr - 1)
        simpa [State.enterEvent, State.rxPushed, hs, hne] using this
  · split at h
    · rename_i e
      simp only [Except.error.injEq] at h
      obtain ⟨h0, hf, rfl⟩ := State.storeReceived_error e
      exact h ▸ .overflows h0 hf
    · rename_i u e
      rw [State.acknowledge_eq] at h
      obtain ⟨hb, rfl⟩ := State.issue_error h
      obtain ⟨h0, rfl⟩ | ⟨h0, hf, rfl⟩ := State.storeReceived_ok e
      · exact .collides (engineBusy_enter hb)
      · exact .collides (engineBusy_enter (s := s) (c := c) hb)

theorem otherRow_seqStep {c : Byte} {s t : State} (h : otherRow c s = .next t) : SeqStep s .other c t := by
  replace h := atomic_next.1 h
  obtain h | ⟨k, h, rfl⟩ := h
  · obtain ⟨hb, rfl⟩ := State.issue_ok h
    obtain ⟨hr, hs⟩ := engineFree_enter hb
    have := SeqStep.clears (s := s) (c := c) rfl hr hs
    simpa [State.enterEvent, hs, Action.leavesReq] using this
  · obtain ⟨hb, rfl⟩ := State.issue_error h
    exact .collides (engineBusy_enter hb)

/-- SEQ's step at an event is one of the cases of `SeqStep`, with the event's class. -/
theorem exec_seqStep {m : StatusMap} {c : Byte} {s t : State} (h : exec (decodeEvent m c) s = .next t) :
    SeqStep s (classify m c) c t := by
  rw [decodeEvent_eq] at h
  generalize classify m c = cls at h
  cases cls
  case start => exact startRow_seqStep (.inl rfl) h
  case repStart => exact startRow_seqStep (.inr rfl) h
  case slarNack => exact readRefusedRow_seqStep h
  case drxAck => exact receivedRow_seqStep (.inl rfl) h
  case drxNack => exact receivedRow_seqStep (.inr rfl) h
  case other => exact otherRow_seqStep h
  all_goals exact sentRow_seqStep (by simp) (by simp) (by simp) (by simp) h

/-! ### Moves and steps -/

theorem stepBy_host {s : State} {w : Word} (hf : s.fault = none) (hw : s.fetchCommand = some w) :
    stepBy .host s = exec (decodeCommand w) s := by
  simp [stepBy, hf, hostMove, hw]

theorem stepBy_seq {s : State} (hf : s.fault = none) (hi : s.int = true) :
    stepBy .seq s = exec (decodeEvent s.params.statusMap s.hwstat) s := by
  simp [stepBy, hf, seqMove, hi]

theorem stepBy_engAnswer {s : State} (c d : Byte) (hf : s.fault = none) (he : s.answerEnabled = true) :
    stepBy (.engAnswer c d) s = .next (s.engineAnswer c d) := by
  simp [stepBy, hf, engAnswerMove, he]

/-- What one move can do, the agent named by the move; no move is made in a faulted state. -/
inductive MoveStep (s : State) : Move → State → Prop where
  | none (mv : Move) : MoveStep s mv s
  | host (w : Word) (i : Instr) (t : State) : s.fetchCommand = some w → decodeCommand w = i → HostStep s i t →
      MoveStep s .host t
  | seq (cls : EventClass) (t : State) : s.int = true → classify s.params.statusMap s.hwstat = cls →
      SeqStep s cls s.hwstat t → MoveStep s .seq t
  | answer (c d : Byte) : s.req ≠ .none → s.int = false → MoveStep s (.engAnswer c d) (s.engineAnswer c d)
  | drop : s.req = .clear → MoveStep s .engDrop s.engineDrop
  | stop : s.stopp = true → MoveStep s .engStop s.engineStop

theorem stepBy_next {mv : Move} {s t : State} (h : stepBy mv s = .next t) : s.fault = none ∧ MoveStep s mv t := by
  unfold stepBy at h
  split at h
  · simp at h
  · refine ⟨‹_›, ?_⟩
    cases mv
    case host =>
      simp only [hostMove] at h
      split at h
      · exact .host _ _ _ ‹_› rfl (exec_hostStep (decodeCommand_command _) h)
      · simp only [Host.Outcome.next.injEq] at h
        exact h ▸ .none _
    case seq =>
      simp only [seqMove] at h
      split at h
      · exact .seq _ _ ‹_› rfl (exec_seqStep h)
      · simp only [Host.Outcome.next.injEq] at h
        exact h ▸ .none _
    case engAnswer c d =>
      simp only [engAnswerMove] at h
      split at h
      · rename_i he
        simp only [Host.Outcome.next.injEq] at h
        simp only [State.answerEnabled, Bool.and_eq_true, decide_eq_true_eq, Bool.not_eq_true'] at he
        exact h ▸ .answer c d he.1 he.2
      · simp only [Host.Outcome.next.injEq] at h
        exact h ▸ .none _
    case engDrop =>
      simp only [engDropMove] at h
      split at h
      · rename_i he
        simp only [Host.Outcome.next.injEq] at h
        exact h ▸ .drop (by simpa [State.dropEnabled] using he)
      · simp only [Host.Outcome.next.injEq] at h
        exact h ▸ .none _
    case engStop =>
      simp only [engStopMove] at h
      split at h
      · simp only [Host.Outcome.next.injEq] at h
        exact h ▸ .stop ‹_›
      · simp only [Host.Outcome.next.injEq] at h
        exact h ▸ .none _

/-- Every step is one move, made on the state with that move taken. -/
theorem step_next {s t : State} (h : step s = .next t) :
    s.takeMove.fault = none ∧ MoveStep s.takeMove s.nextMove t := stepBy_next h

end Sys2Proof.Machine
end

