-- ==== Sys2Proof/Tests/Slice0.lean ====
section
/-!
SUPPORT. The model's own tests, each one step or one decoding with its expected result from spec/95_test_vectors.md (its
vector is named) or from the rule named; then, for each statement with hypotheses, a concrete state and operands that meet
all of them.
-/

namespace Sys2Proof.Tests

open Sys2Proof Sys2Proof.Machine Sys2Proof.Spec

/-! ### Helpers -/

/-- The outcome is a next state with this property. -/
def nextWith (r : Result) (p : State → Bool) : Bool :=
  match r with
  | .next t => p t
  | .fault _ => false
  | .refused _ => false

/-- HOST's step at the word `w`, alone in the program, from `s`. -/
def hostAt (w : Word) (s : State) : Result :=
  stepBy .host { s with params := { s.params with program := [w] } }

/-- SEQ's step at the event `c`, from `s`. -/
def seqAt (c : Byte) (s : State) : Result := stepBy .seq { s with hwstat := c, int := true }

/-- A ring holding one byte, or two, from slot 0. -/
def ring1 (a : Byte) : Ring := { buf := [(0, a)], head := 1, tail := 0, last := .write }

def ring2 (a b : Byte) : Ring := { buf := [(0, a), (1, b)], head := 2, tail := 0, last := .write }

/-- A full ring (its bytes do not matter). -/
def ringFull : Ring := { buf := [], head := 0, tail := 0, last := .write }

def tx (r : Ring) : State := { State.reset with tx := r }

def rx (r : Ring) : State := { State.reset with rx := r }

def btr (n : Nat) : State := { State.reset with btr := n }

/-! ### WellFormed refuses ill-formed terms, one for each check -/

/-- 0x1042 is BEGIN_TX 0x42, not an illegal word (R60). -/
theorem test_wellFormed_refuses_illegal : (Instr.illegal 0x1042).wellFormed defaultStatusMap = false := by decide

/-- A code of another class is refused by each event row (R65, R66). -/
theorem test_wellFormed_refuses_events :
    [Instr.evStart 0x10, .evRepStart 0x08, .evSlawAck 0x20, .evSlawNack 0x18, .evDtxAck 0x30, .evDtxNack 0x28,
      .evSlarAck 0x48, .evSlarNack 0x40, .evDrxAck 0x58, .evDrxNack 0x50, .evOther 0x08].all
      (fun i => i.wellFormed defaultStatusMap = false) = true := by decide

theorem test_wellFormed_accepts :
    [Instr.illegal 0x1142, .evStart 0x0F, .evOther 0x00, .beginTx 0x7F, .requestFrom 0 255].all
      (fun i => i.wellFormed defaultStatusMap = true) = true := by decide

/-! ### Decoding (V-DEC, V-STAT), every constructor but the pseudo-instruction, which no word decodes to -/

theorem test_decode_commands :
    [0x1042, 0x1000, 0x107F, 0x2000, 0x20FF, 0x3000, 0x4042, 0x4000, 0x407F, 0x5000, 0x50FF, 0x6000, 0x7000, 0x8000,
      0x9000, 0xA000].map decodeCommand
    = [.beginTx 0x42, .beginTx 0x00, .beginTx 0x7F, .write 0x00, .write 0xFF, .endTx, .beginRx 0x42, .beginRx 0x00,
      .beginRx 0x7F, .requestBytes 0, .requestBytes 255, .available, .read, .endRx, .getStatus, .getBtr] := by decide

theorem test_decode_illegal :
    [0x10C2, 0x1142, 0x3001, 0x4080, 0x6080, 0xA001, 0xAF00, 0x0000, 0x00FF, 0xB000, 0xF000, 0xFFFF].all
      (fun w => decodeCommand w = .illegal w) = true := by decide

theorem test_decode_events :
    [0x08, 0x09, 0x10, 0x18, 0x20, 0x28, 0x30, 0x38, 0x40, 0x48, 0x50, 0x57, 0x58, 0x00, 0x60, 0xF8, 0xFF].map
      (decodeEvent defaultStatusMap)
    = [.evStart 0x08, .evStart 0x09, .evRepStart 0x10, .evSlawAck 0x18, .evSlawNack 0x20, .evDtxAck 0x28, .evDtxNack 0x30,
      .evOther 0x38, .evSlarAck 0x40, .evSlarNack 0x48, .evDrxAck 0x50, .evDrxAck 0x57, .evDrxNack 0x58, .evOther 0x00,
      .evOther 0x60, .evOther 0xF8, .evOther 0xFF] := by decide

/-- The four words of the program P7 (R63). -/
theorem test_encode_requestFrom : encode (.requestFrom 0x42 1) = .words [0x4042, 0x5001, 0x8000, 0x6000] := by decide

theorem test_decodeTableWord :
    decodeTableWord 16 0x1042 = some (.beginTx 0x42) ∧ decodeTableWord 8 0x57 = some (.evDrxAck 0x57) ∧
    decodeTableWord 16 0x10000 = none ∧ decodeTableWord 32 0 = none := by decide

/-- SLA bytes of V-DEC (R58). -/
theorem test_sla :
    [slaByte 0x42 .write, slaByte 0x00 .write, slaByte 0x7F .write, slaByte 0x42 .read, slaByte 0x00 .read,
      slaByte 0x7F .read] = [0x84, 0x00, 0xFE, 0x85, 0x01, 0xFF] := by decide

/-- Codes of R64 and R112. -/
theorem test_codes :
    [Action.start, .stop, .cont, .ack, .nack, .release, .clear].map Action.code = [1, 2, 3, 4, 5, 6, 7] ∧
    [FaultKind.rbOverflow, .rbUnderflow, .requestCollision, .btrOverflow, .illegalCommand].map FaultKind.code
      = [1, 2, 3, 4, 5] := by decide

/-! ### Assembler (R62, R63) -/

theorem test_assemble_mnemonics :
    ["BEGIN_TX 0x42", "WRITE 0x10", "END_TX", "BEGIN_RX 0x42", "REQUEST_BYTES 3", "AVAILABLE", "READ", "END_RX",
      "GET_STATUS", "GET_BTR", "REQUEST_FROM 0x42, 1"].map (fun l => assembleLine l.toList)
    = [some (.beginTx 0x42), some (.write 0x10), some .endTx, some (.beginRx 0x42), some (.requestBytes 3),
      some .available, some .read, some .endRx, some .getStatus, some .getBtr, some (.requestFrom 0x42 1)] := by decide

theorem test_assemble_aliases :
    ["beginTransmission 1", "write 255", "endTransmission", "beginReception 127", "requestBytes 0", "available", "read",
      "endReception", "getStatus", "getBytesToReceive"].map (fun l => assembleLine l.toList)
    = [some (.beginTx 1), some (.write 255), some .endTx, some (.beginRx 127), some (.requestBytes 0), some .available,
      some .read, some .endRx, some .getStatus, some .getBtr] := by decide

theorem test_assemble_refuses :
    ["BEGIN_TX 128", "WRITE 256", "REQUEST_BYTES 0x100", "END_TX 0", "READ 1", "WRITE", "NOP", "WRITE 0x", "WRITE 1A"].map
      (fun l => assembleLine l.toList) = List.replicate 9 none := by decide

/-! ### Storage and rings (V-RB) -/

theorem test_count : -- RB3, RB4, RB2, RB18
    (Ring.count 16 ⟨[], 2, 14, .write⟩, Ring.count 16 ⟨[], 14, 2, .read⟩, Ring.count 16 ⟨[], 0, 0, .write⟩,
      Ring.count 3 ⟨[], 1, 2, .write⟩) = (4, 12, 16, 2) := by decide

theorem test_push_wraps : -- RB6: the push at slot 15 wraps and fills
    (Ring.pushBack 16 ⟨[(0, 1)], 15, 0, .write⟩ 0x5A).toOption = some ⟨[(0, 1), (15, 0x5A)], 0, 0, .write⟩ := by decide

theorem test_pop_wraps : -- RB9
    (Ring.popFront .tx 16 ⟨[(15, 0x99)], 0, 15, .write⟩).toOption = some (0x99, ⟨[(15, 0x99)], 0, 0, .read⟩) := by decide

theorem test_capacity_one : -- RB14, RB15
    (Ring.pushBack 1 ⟨[], 0, 0, .read⟩ 0xAA).toOption = some ⟨[(0, 0xAA)], 0, 0, .write⟩ ∧
    (Ring.pushBack 1 ⟨[], 0, 0, .write⟩ 0xBB).toOption = none := by decide

/-! ### Host commands (V-HOST) -/

theorem test_beginTx_pushes_slaW : -- W1 and R79's example
    nextWith (hostAt 0x1042 State.reset) (fun t => decide (t.tx = ring1 0x84 ∧ t.req = .start ∧ t.hpc = 1 ∧
      t.trace = [⟨.host, .start, 0x00⟩])) = true := by decide

theorem test_beginTx_collides : -- H2
    nextWith (hostAt 0x1042 { State.reset with req := .cont }) (fun t => decide
      (t.fault = some ⟨.requestCollision, .host, 0⟩ ∧ t.tx = Ring.empty ∧ t.trace = [] ∧ t.hpc = 0)) = true := by decide

theorem test_beginRx_pushes_slaR : -- W1
    nextWith (hostAt 0x4042 { State.reset with btr := 3 }) (fun t => decide (t.tx = ring1 0x85 ∧ t.btr = 3)) = true := by
  decide

theorem test_beginRx_collides : -- H3
    nextWith (hostAt 0x4042 { State.reset with stopp := true }) (fun t => decide
      (t.fault = some ⟨.requestCollision, .host, 0⟩)) = true := by decide

theorem test_write_queues : -- H6
    nextWith (hostAt 0x2010 (tx (ring1 0x84))) (fun t => decide
      (t.tx = ring2 0x84 0x10 ∧ t.data = 0x00 ∧ t.req = .none ∧ t.trace = [] ∧ t.hpc = 1)) = true := by decide

theorem test_write_kicks : -- H7
    nextWith (hostAt 0x2010 { State.reset with data := 0x84 }) (fun t => decide
      (t.tx = ring1 0x10 ∧ t.data = 0x10 ∧ t.req = .cont ∧ t.trace = [⟨.host, .cont, 0x10⟩])) = true := by decide

theorem test_endTx_issues_stop : -- H10, phase 0
    nextWith (hostAt 0x3000 { State.reset with status := 0x30 }) (fun t => decide
      (t.stopp = true ∧ t.hph = .one ∧ t.hpc = 0 ∧ t.out = [])) = true := by decide

theorem test_endTx_reports_status : -- H10, phase 1
    nextWith (hostAt 0x3000 { State.reset with status := 0x30, hph := .one }) (fun t => decide
      (t.out = [0x0030] ∧ t.hpc = 1 ∧ t.hph = .zero)) = true := by decide

theorem test_requestBytes_adds : -- H13, H15
    nextWith (hostAt 0x5005 (btr 250)) (fun t => decide (t.btr = 255 ∧ t.hpc = 1)) = true ∧
    nextWith (hostAt 0x5006 { btr 250 with params := { defaultParams with btrWidth := 16 } })
      (fun t => decide (t.btr = 256)) = true := by decide

theorem test_requestBytes_overflows : -- H14
    nextWith (hostAt 0x5006 (btr 250)) (fun t => decide
      (t.fault = some ⟨.btrOverflow, .host, 0⟩ ∧ t.btr = 250)) = true := by decide

theorem test_available_full : -- H17
    nextWith (hostAt 0x6000 (rx ⟨[], 7, 7, .write⟩)) (fun t => decide (t.out = [0x0010])) = true := by decide

theorem test_available_wrapped : -- H19
    nextWith (hostAt 0x6000 (rx ⟨[], 2, 14, .write⟩)) (fun t => decide (t.out = [0x0004])) = true := by decide

theorem test_read_empty : -- H20
    nextWith (hostAt 0x7000 State.reset) (fun t => decide (t.out = [0x0000] ∧ t.rx = Ring.empty ∧ t.hpc = 1)) = true := by
  decide

theorem test_read_takes : -- H21
    nextWith (hostAt 0x7000 (rx (ring2 0xAB 0xCD))) (fun t => decide
      (t.out = [0x00AB] ∧ t.rx = ⟨[(0, 0xAB), (1, 0xCD)], 2, 1, .read⟩)) = true := by decide

theorem test_endRx_waits : -- H22
    nextWith (hostAt 0x8000 (btr 1)) (fun t => decide (t.hph = .zero ∧ t.hpc = 0 ∧ t.trace = [])) = true := by decide

theorem test_endRx_completes : -- H23, phase 1
    nextWith (hostAt 0x8000 { State.reset with hph := .one }) (fun t => decide
      (t.hpc = 1 ∧ t.hph = .zero ∧ t.out = [])) = true := by decide

theorem test_getStatus : -- H26
    nextWith (hostAt 0x9000 { State.reset with status := 0x48 }) (fun t => decide (t.out = [0x0048])) = true := by decide

theorem test_getBtr : -- H27
    nextWith (hostAt 0xA000 (btr 3)) (fun t => decide (t.out = [0x0003] ∧ t.btr = 3)) = true := by decide

theorem test_requestFrom_begins : -- P7, the first step
    nextWith (exec (.requestFrom 0x42 1) State.reset) (fun t => decide
      (t.params.program = [0x4042, 0x5001, 0x8000, 0x6000] ∧ t.tx = ring1 0x85 ∧ t.hpc = 1 ∧ t.req = .start)) = true := by
  decide

theorem test_illegal_faults : -- H28: HPC = 4
    nextWith (stepBy .host { State.reset with hpc := 4, params := { defaultParams with program := List.replicate 5 0 } })
      (fun t => decide (t.fault = some ⟨.illegalCommand, .host, 4⟩ ∧ t.hpc = 4)) = true := by decide

/-! ### Events (V-SEQ) -/

theorem test_evStart_loads_sla : -- S28: STATUS keeps the low bits
    nextWith (seqAt 0x09 (tx (ring1 0x84))) (fun t => decide (t.status = 0x09 ∧ t.data = 0x84 ∧ t.tx = ring1 0x84 ∧
      t.int = false ∧ t.req = .cont ∧ t.trace = [⟨.seq, .cont, 0x84⟩])) = true := by decide

theorem test_evStart_without_tx : -- S4, S5
    nextWith (seqAt 0x08 (btr 1)) (fun t => decide (t.req = .nack)) = true ∧
    nextWith (seqAt 0x08 State.reset) (fun t => decide (t.req = .none ∧ t.trace = [⟨.seq, .release, 0x00⟩])) = true := by
  decide

theorem test_evRepStart : -- S2
    nextWith (seqAt 0x10 { tx (ring1 0x85) with btr := 2 }) (fun t => decide
      (t.data = 0x85 ∧ t.req = .cont ∧ t.btr = 2)) = true := by decide

theorem test_evSlawAck : -- S6
    nextWith (seqAt 0x18 (tx (ring2 0x84 0x10))) (fun t => decide
      (t.tx = ⟨[(0, 0x84), (1, 0x10)], 2, 1, .read⟩ ∧ t.data = 0x10 ∧ t.req = .cont)) = true := by decide

theorem test_evSlawAck_underflows : -- S19
    nextWith (seqAt 0x18 State.reset) (fun t => decide
      (t.fault = some ⟨.rbUnderflow, .seq, 0⟩ ∧ t.int = true ∧ t.status = 0x00)) = true := by decide

theorem test_evSlawNack_goes_on : -- S11
    nextWith (seqAt 0x20 (tx (ring2 0x84 0x10))) (fun t => decide
      (t.tx.tail = 1 ∧ t.data = 0x10 ∧ t.req = .cont ∧ t.status = 0x20)) = true := by decide

theorem test_evDtxAck : -- S15
    nextWith (seqAt 0x28 (tx (ring2 0x10 0x20))) (fun t => decide (t.tx.tail = 1 ∧ t.data = 0x20 ∧ t.req = .cont)) = true := by
  decide

theorem test_evDtxNack_last : -- S16
    nextWith (seqAt 0x30 (tx (ring1 0x20))) (fun t => decide
      (t.tx = ⟨[(0, 0x20)], 1, 1, .read⟩ ∧ t.trace = [⟨.seq, .release, 0x00⟩] ∧ t.status = 0x30)) = true := by decide

theorem test_evSlarAck : -- S8, S9
    nextWith (seqAt 0x40 { tx (ring1 0x85) with btr := 1 }) (fun t => decide (t.req = .nack ∧ t.btr = 1)) = true ∧
    nextWith (seqAt 0x40 { tx (ring1 0x85) with btr := 3 }) (fun t => decide (t.req = .cont ∧ t.btr = 3)) = true := by decide

theorem test_evSlarNack_zeroes_btr : -- S13, S14
    nextWith (seqAt 0x48 { tx (ring1 0x85) with btr := 5 }) (fun t => decide
      (t.btr = 0 ∧ t.trace = [⟨.seq, .release, 0x00⟩])) = true ∧
    nextWith (seqAt 0x48 { tx (ring2 0x85 0x10) with btr := 5 }) (fun t => decide
      (t.btr = 0 ∧ t.data = 0x10 ∧ t.req = .cont)) = true := by decide

theorem test_evDrxAck_stores : -- S20, S21
    nextWith (seqAt 0x50 { State.reset with btr := 3, data := 0xAB }) (fun t => decide
      (t.rx = ring1 0xAB ∧ t.btr = 2 ∧ t.trace = [⟨.seq, .ack, 0xAB⟩])) = true ∧
    nextWith (seqAt 0x50 { State.reset with btr := 2, data := 0xCD }) (fun t => decide (t.btr = 1 ∧ t.req = .nack)) = true := by
  decide

theorem test_evDrxAck_overflows_or_discards : -- S24, S23
    nextWith (seqAt 0x50 { rx ringFull with btr := 2 }) (fun t => decide
      (t.fault = some ⟨.rbOverflow, .seq, 0⟩ ∧ t.btr = 2 ∧ t.int = true)) = true ∧
    nextWith (seqAt 0x50 { rx ringFull with data := 0x99 }) (fun t => decide
      (t.rx = ringFull ∧ t.btr = 0 ∧ t.trace = [⟨.seq, .release, 0x99⟩])) = true := by decide

theorem test_evDrxNack : -- S22, S25
    nextWith (seqAt 0x58 { State.reset with btr := 1, data := 0xEF }) (fun t => decide
      (t.rx = ring1 0xEF ∧ t.btr = 0 ∧ t.trace = [⟨.seq, .release, 0xEF⟩])) = true ∧
    nextWith (seqAt 0x58 { State.reset with btr := 4, data := 0x01 }) (fun t => decide (t.btr = 3 ∧ t.req = .ack)) = true := by
  decide

theorem test_evOther_clears : -- S26
    nextWith (seqAt 0x38 (tx (ring1 0x10))) (fun t => decide
      (t.status = 0x38 ∧ t.req = .clear ∧ t.tx = ring1 0x10 ∧ t.trace = [⟨.seq, .clear, 0x00⟩])) = true := by decide

/-! ### The engine (V-ENG) -/

theorem test_engine_answers : -- E5, E6
    nextWith (stepBy (.engAnswer 0x50 0x33) { State.reset with req := .ack }) (fun t => decide
      (t.hwstat = 0x50 ∧ t.data = 0x33 ∧ t.req = .none ∧ t.int = true)) = true ∧
    nextWith (stepBy (.engAnswer 0x18 0x33) { State.reset with req := .cont, data := 0x84 }) (fun t => decide
      (t.hwstat = 0x18 ∧ t.data = 0x84 ∧ t.int = true)) = true := by decide

theorem test_engine_drops_and_stops : -- E7, E8
    nextWith (stepBy .engDrop { State.reset with req := .clear }) (fun t => decide (t.req = .none ∧ t.int = false)) = true ∧
    nextWith (stepBy .engStop { State.reset with stopp := true, status := 0x28 }) (fun t => decide
      (t.stopp = false ∧ t.status = 0x28 ∧ t.hwstat = 0x00)) = true := by decide

theorem test_engine_conformant : -- E10, E11
    conformantNext .cont .idle false .slawAck = none ∧ conformantNext .cont .addr true .slarAck = some .mr ∧
    conformantNext .cont .addr true .slarNack = some .held ∧ conformantNext .cont .addr true .slawAck = none := by decide

/-! ### Running one instruction from reset -/

theorem test_withFetchWord_command :
    nextWith (step (State.reset.withFetchWord 16 0x1042)) (fun t => decide (t.tx = ring1 0x84 ∧ t.hpc = 1)) = true := by decide

theorem test_withFetchWord_event :
    nextWith (step (State.reset.withFetchWord 8 0x38)) (fun t => decide (t.status = 0x38 ∧ t.req = .clear)) = true := by decide

/-- A faulted state has no step (R29, R113). -/
theorem test_faulted_stops :
    step { State.reset with fault := some ⟨.illegalCommand, .host, 1⟩ } = .fault (.stopped ⟨.illegalCommand, .host, 1⟩) := by
  rfl

/-! ### Witnesses: for each statement with hypotheses, a state and operands that meet them, clause by clause -/

/-- What makes a ring well-formed, as facts `decide` can settle. -/
abbrev ringFacts (c : Nat) (r : Ring) : Prop :=
  r.buf.wf ∧ (∀ x ∈ r.buf, x.1 < c) ∧ r.head < c ∧ r.tail < c ∧
    ∀ k, k < r.count c → (r.buf.read ((r.tail + k) % c)).isSome = true

theorem ringInv {c : Nat} {r : Ring} (h : ringFacts c r) : r.Inv c :=
  ⟨h.1, h.2.1, h.2.2.1, h.2.2.2.1, h.2.2.2.2⟩

/-- What makes a state between commands satisfy the invariant, as facts `decide` can settle. -/
abbrev stateFacts (s : State) : Prop :=
  s.params.wf ∧ ringFacts s.params.capacity s.tx ∧ ringFacts s.params.capacity s.rx ∧ s.btr ≤ btrMax s.params ∧
    (s.req ≠ .none → s.int = false) ∧ s.stopp = false ∧ s.hph = .zero ∧ s.hpc ≤ s.params.program.length

theorem stateInv {s : State} (h : stateFacts s) : s.Inv where
  params := h.1
  tx := ringInv h.2.1
  rx := ringInv h.2.2.1
  btr := h.2.2.2.1
  reqInt := h.2.2.2.2.1
  stopIdle := fun e => by rw [h.2.2.2.2.2.1] at e; cases e
  stopHph := fun e => by rw [h.2.2.2.2.2.1] at e; cases e
  hphMid := fun e => by rw [h.2.2.2.2.2.2.1] at e; cases e
  hpcLe := h.2.2.2.2.2.2.2

/-- A state with this program and reset otherwise. -/
def program (ws : List Word) : State := { State.reset with params := { defaultParams with program := ws } }

/-- A state with one slot in each ring. -/
def oneSlot : State := { State.reset with params := { defaultParams with capacity := 1 } }

/-- A pending event. -/
def pending (c : Byte) (s : State) : State := { s with hwstat := c, int := true }

theorem witness_DecodeOfEncodeIsTheInstruction :
    (Instr.requestFrom 0x7F 255).wellFormed defaultStatusMap = true ∧ (Instr.evDrxAck 0x57).wellFormed defaultStatusMap = true ∧
    (Instr.evOther 0xFF).wellFormed [] = true ∧ (Instr.illegal 0xFFFF).wellFormed [] = true := by decide

/-- The spellings the statement on the assembler quantifies over, at their boundaries. -/
theorem test_spellings :
    spellings (0x42 : Addr).toNat = ["66".toList, "0x42".toList] ∧
    spellings (7 : Byte).toNat = ["7".toList, "0x7".toList, "0x07".toList] ∧
    spellings (127 : Addr).toNat = ["127".toList, "0x7F".toList] ∧
    spellings (255 : Byte).toNat = ["255".toList, "0xFF".toList] ∧
    lineOf "REQUEST_FROM" ("0x42".toList ++ ',' :: ' ' :: "1".toList) = "REQUEST_FROM 0x42, 1".toList := by decide

theorem witness_AssemblerWritesLegalWordsOnly_accepts :
    (tokens "beginReception 127".toList [] = ["beginReception".toList, "127".toList] ∧ number "127".toList = some 127 ∧
      127 ≤ 127 ∧ named "beginReception".toList "BEGIN_RX" "beginReception" = true) ∧
    (tokens "WRITE 0xFF".toList [] = ["WRITE".toList, "0xFF".toList] ∧ number "0xFF".toList = some 255 ∧ 255 ≤ 255 ∧
      named "WRITE".toList "WRITE" "write" = true) := by decide

theorem witness_AssemblerWritesLegalWordsOnly :
    assemble ["BEGIN_TX 127".toList, "REQUEST_FROM 0, 255".toList] = some [0x107F, 0x4000, 0x50FF, 0x8000, 0x6000] ∧
    assembleLine "WRITE 255".toList = some (.write 255) ∧
    (tokens "BEGIN_RX 128".toList [] = ["BEGIN_RX".toList, "128".toList] ∧ number "128".toList = some 128 ∧ 127 < 128 ∧
      named "BEGIN_RX".toList "BEGIN_RX" "beginReception" = true) ∧
    (tokens "WRITE 0x100".toList [] = ["WRITE".toList, "0x100".toList] ∧ number "0x100".toList = some 256 ∧ 255 < 256) ∧
    (tokens "REQUEST_FROM 127, 256".toList [] = ["REQUEST_FROM".toList, "127".toList, [','], "256".toList] ∧
      number "127".toList = some 127 ∧ number "256".toList = some 256) := by decide

theorem witness_StepRunsTheDecodedInstruction_command :
    let s := { program [0x107F] with schedule := [.host] }
    s.fault = none ∧ (Instr.beginTx 0x7F).wellFormed s.params.statusMap = true ∧ s.schedule = .host :: [] ∧
      s.params.program[s.hpc]? = some 0x107F ∧ encode (.beginTx 0x7F) = .words [0x107F] := by decide

theorem witness_StepRunsTheDecodedInstruction_event :
    let s := { pending 0x0F State.reset with schedule := [.seq, .host] }
    s.fault = none ∧ (Instr.evStart 0x0F).wellFormed s.params.statusMap = true ∧ s.schedule = .seq :: [.host] ∧
      s.int = true ∧ encode (.evStart 0x0F) = .status s.hwstat := by decide

theorem witness_StepMakesTheScheduledMove :
    ({ State.reset with schedule := [.engDrop] } : State).schedule = .engDrop :: [] ∧ State.reset.schedule = [] ∧
    State.reset.fault = none ∧ State.reset.params.program.length ≤ State.reset.hpc ∧ State.reset.int = false := by decide

theorem witness_MoveWithoutStepChangesNothing :
    State.reset.fault = none ∧ State.reset.enabled .host = false ∧ State.reset.enabled .seq = false ∧
    State.reset.enabled (.engAnswer 0 0) = false ∧ State.reset.enabled .engDrop = false ∧
    State.reset.enabled .engStop = false ∧
    ({ State.reset with fault := some ⟨.btrOverflow, .host, 0⟩ } : State).fault = some ⟨.btrOverflow, .host, 0⟩ := by decide

theorem witness_CommandWaitsWhileGuardIsFalse :
    hostGuard (.beginTx 0x42) (tx (ring1 0x84)) = false ∧ hostGuard (.beginRx 0x42) (tx ringFull) = false ∧
    hostGuard (.write 0) (tx ringFull) = false ∧ hostGuard .endTx (tx (ring1 0x84)) = false ∧
    hostGuard .endTx { State.reset with hph := .one, stopp := true } = false ∧ hostGuard .endRx (btr 1) = false ∧
    hostGuard .endRx { State.reset with hph := .one, stopp := true } = false := by decide

theorem witness_GuardStaysTrueUntilHostSteps :
    Move.seq ≠ .host ∧ hostGuard (.write 0) (pending 0x28 (tx (ring1 0x10))) = true ∧
    nextWith (stepBy .seq (pending 0x28 (tx (ring1 0x10)))) (fun t => hostGuard (.write 0) t) = true ∧
    Move.engStop ≠ .host ∧ hostGuard (.beginTx 0) { State.reset with stopp := true } = true ∧
    nextWith (stepBy .engStop { State.reset with stopp := true }) (fun t => hostGuard (.beginTx 0) t) = true := by decide

theorem witness_SilentEngineLeavesHostWaiting :
    let s := { program [0x3000] with tx := ring1 0x10 }
    (∀ mv ∈ [Move.host, .seq, .host], mv = .host ∨ mv = .seq) ∧ s.fault = none ∧ s.int = false ∧ s.hostEnabled = false := by
  decide

theorem witness_EngineAnswerRaisesOneEvent :
    let s := { State.reset with req := .ack }
    s.fault = none ∧ s.req ≠ .none ∧ s.int = false ∧ classify s.params.statusMap 0x50 = .drxAck := by decide

theorem witness_EngineDropsClearAndCompletesStop :
    ({ State.reset with req := .clear } : State).fault = none ∧ ({ State.reset with req := .clear } : State).req = .clear ∧
    ({ State.reset with req := .clear } : State).int = false ∧
    ({ State.reset with stopp := true } : State).fault = none ∧ ({ State.reset with stopp := true } : State).stopp = true := by
  decide

/-- In states of the invariant: a CLEAR, which ENG may drop, and a START, which it may not. -/
theorem witness_EngineDropsClearAndCompletesStop_only :
    (({ State.reset with req := .clear } : State).Inv ∧ ({ State.reset with req := .clear } : State).enabled .engDrop = true) ∧
    (({ State.reset with req := .start } : State).Inv ∧ ({ State.reset with req := .start } : State).enabled .engDrop = false) :=
  ⟨⟨stateInv (by decide), by decide⟩, ⟨stateInv (by decide), by decide⟩⟩

theorem witness_ReleaseAndStopLeaveNoRequest :
    (∃ t, State.reset.issue .seq .release = .ok t) ∧ (∃ t, State.reset.issue .host .stop = .ok t) := ⟨⟨_, rfl⟩, ⟨_, rfl⟩⟩

theorem witness_IssueRecordsAndHandsOver :
    ({ State.reset with req := .clear } : State).req ≠ .none ∧ ({ State.reset with int := true } : State).int = true ∧
    ({ State.reset with stopp := true } : State).stopp = true ∧ Idle State.reset := ⟨nofun, rfl, rfl, rfl, rfl, rfl⟩

theorem witness_StepKeepsTheInvariant :
    let s := { program [0x3000] with schedule := [.host] }
    s.Inv ∧ nextWith (step s) (fun t => t.hph = .one) = true := ⟨stateInv (by decide), by decide⟩

theorem witness_FinalAndStuckStatesHaveNoStep :
    State.reset.final = true ∧ (program [0x8000]).final = false ∧ ({ program [0x8000] with btr := 1 } : State).stuck = true := by
  decide

theorem witness_SlotWriteIsReadBackAlone : (1 : Nat) ≠ 0 ∧ Memory.read (Memory.write [(0, 7)] 0 8) 0 = some 8 := by decide

theorem witness_EmptyFullAndCountFollowTheTag :
    RingFull ringFull ∧ RingEmpty Ring.empty ∧ (ring1 0).head ≠ (ring1 0).tail := ⟨⟨rfl, rfl⟩, ⟨rfl, rfl⟩, by decide⟩

theorem witness_RingPrimitivesFollowTheirRules :
    RingFull ringFull ∧ ¬ RingFull Ring.empty ∧ RingEmpty Ring.empty ∧ ¬ RingEmpty (ring1 0x84) ∧
    (ring1 0x84).buf.read (ring1 0x84).tail = some 0x84 := by
  simp only [RingFull, RingEmpty]
  decide

theorem witness_CapacityPushesFillTheRing :
    Ring.empty.Inv 1 ∧ RingEmpty Ring.empty ∧ [(0xAA : Byte)].length = 1 := ⟨ringInv (by decide), ⟨rfl, rfl⟩, rfl⟩

/-- On one slot a push and a pop succeed, and a second push or pop faults. -/
theorem witness_RingBufferIsABoundedQueue :
    (1 : Nat) ≤ 1 ∧ (runQueue 1 [.push 7, .pop] []).toOption = some ([7], []) ∧
    (runQueue 1 [.push 7, .push 8] []).toOption = none ∧ (runQueue 1 [.pop] []).toOption = none := by decide

/-- The three cases of BEGIN_TX, BEGIN_RX and REQUEST_FROM. -/
theorem witness_BeginTxPushesSlaWriteAndStarts :
    ¬ RingEmpty (tx (ring1 0x84)).tx ∧ RingEmpty ({ State.reset with int := true } : State).tx ∧
    ¬ Idle { State.reset with int := true } ∧ RingEmpty State.reset.tx ∧ Idle State.reset := by
  simp only [RingEmpty, Idle]
  decide

theorem witness_BeginRxPushesSlaReadAndStarts :
    ¬ RingEmpty (tx ringFull).tx ∧ RingEmpty ({ State.reset with req := .start } : State).tx ∧
    ¬ Idle { State.reset with req := .start } ∧ RingEmpty (btr 255).tx ∧ Idle (btr 255) := by
  simp only [RingEmpty, Idle]
  decide

theorem witness_WriteQueuesAndKicksAnEmptyTx :
    RingFull (tx ringFull).tx ∧ (¬ RingFull (tx (ring1 0x84)).tx ∧ ¬ RingEmpty (tx (ring1 0x84)).tx) ∧
    (RingEmpty State.reset.tx ∧ Idle State.reset) ∧
    (RingEmpty ({ State.reset with req := .ack } : State).tx ∧ ¬ Idle { State.reset with req := .ack }) := by
  simp only [RingEmpty, RingFull, Idle]
  decide

theorem witness_EndTxStopsThenReportsStatus :
    ((tx (ring1 0x10)).hph = .zero ∧ ¬ RingEmpty (tx (ring1 0x10)).tx) ∧
    (State.reset.hph = .zero ∧ RingEmpty State.reset.tx ∧ Idle State.reset) ∧
    ¬ Idle { State.reset with req := .nack } ∧
    (({ State.reset with hph := .one, stopp := true } : State).hph = .one ∧
      ({ State.reset with hph := .one, stopp := true } : State).stopp = true ∧
      ({ State.reset with hph := .one } : State).stopp = false) := by
  simp only [RingEmpty, Idle]
  decide

theorem witness_EndRxStopsThenCompletes :
    ((btr 1).hph = .zero ∧ (btr 1).btr ≠ 0) ∧ (State.reset.hph = .zero ∧ State.reset.btr = 0 ∧ Idle State.reset) ∧
    ¬ Idle { State.reset with req := .start } ∧
    (({ State.reset with hph := .one, stopp := true } : State).stopp = true ∧
      ({ State.reset with hph := .one } : State).stopp = false) := by
  simp only [Idle]
  decide

theorem witness_EndTxCompletesWithOneStop :
    let s := { program [0x3000] with status := 0x28 }
    s.fault = none ∧ Idle s ∧ RingEmpty s.tx ∧ s.hph = .zero ∧ s.params.program[s.hpc]? = some 0x3000 := by
  simp only [RingEmpty, Idle]
  decide

/-- The boundary of BTR at W_BTR = 8: 250 + 5 fits, 250 + 6 does not (H13, H14). -/
theorem witness_RequestBytesAddsToBtrOrFaults :
    (btr 250).btr + (5 : Byte).toNat ≤ 2 ^ (btr 250).params.btrWidth - 1 ∧
    2 ^ (btr 250).params.btrWidth - 1 < (btr 250).btr + (6 : Byte).toNat := by decide

theorem witness_ObserversReportAndChangeNothingElse :
    RingEmpty State.reset.rx ∧ RingFull (rx ringFull).rx ∧ (rx (ring1 0)).rx.head ≠ (rx (ring1 0)).rx.tail := by
  simp only [RingEmpty, RingFull]
  decide

theorem witness_ReadTakesTheFrontByteOrReportsZero :
    RingEmpty State.reset.rx ∧ ¬ RingEmpty (rx (ring1 0xAB)).rx ∧
    (rx (ring1 0xAB)).rx.buf.read (rx (ring1 0xAB)).rx.tail = some 0xAB := by
  simp only [RingEmpty]
  decide

theorem witness_IllegalWordRaisesIllegalCommand :
    (program [0x0000]).fault = none ∧ (program [0x0000]).params.program[(program [0x0000]).hpc]? = some 0x0000 ∧
    isIllegalWord 0x0000 = true ∧ isIllegalWord 0x10C2 = true ∧ isIllegalWord 0xB000 = true ∧ isIllegalWord 0x3001 = true ∧
    isIllegalWord 0x1142 = true := by decide

theorem witness_RequestFromIsItsFourWords :
    State.reset.hpc ≤ State.reset.params.program.length ∧
    ({ program [0x6000] with hpc := 1 } : State).hpc ≤ (program [0x6000]).params.program.length := by decide

/-- The empty reception, n = 0. -/
theorem witness_RequestFromReportsTheBytesReceived_none :
    let s := program [0x4042, 0x5000, 0x8000, 0x6000]
    s.Inv ∧ s.fault = none ∧ Idle s ∧ RingEmpty s.tx ∧ RingEmpty s.rx ∧ s.btr = 0 ∧ s.hph = .zero ∧
      (0 : Byte).toNat ≤ s.params.capacity ∧ ([] : List (Byte × Byte)).length = (0 : Byte).toNat ∧
      s.params.program[s.hpc]? = some (0x4000 ||| (0x42 : Addr).setWidth 16) ∧
      s.params.program[s.hpc + 1]? = some (0x5000 ||| (0 : Byte).setWidth 16) ∧
      s.params.program[s.hpc + 2]? = some 0x8000 ∧ s.params.program[s.hpc + 3]? = some 0x6000 ∧
      classify s.params.statusMap 0x08 = .start ∧ classify s.params.statusMap 0x40 = .slarAck := by
  refine ⟨stateInv (by decide), ?_⟩
  simp only [RingEmpty, Idle]
  decide

/-- P7 schedule B's hypotheses, on one slot: n = C. -/
theorem witness_RequestFromReportsTheBytesReceived :
    let s := { program [0x4042, 0x5001, 0x8000, 0x6000] with
      params := { defaultParams with capacity := 1, program := [0x4042, 0x5001, 0x8000, 0x6000] } }
    s.Inv ∧ s.fault = none ∧ Idle s ∧ RingEmpty s.tx ∧ RingEmpty s.rx ∧ s.btr = 0 ∧ s.hph = .zero ∧
      (1 : Byte).toNat ≤ s.params.capacity ∧ [((0x58 : Byte), (0x5A : Byte))].length = (1 : Byte).toNat ∧
      s.params.program[s.hpc]? = some (0x4000 ||| (0x42 : Addr).setWidth 16) ∧
      s.params.program[s.hpc + 1]? = some (0x5000 ||| (1 : Byte).setWidth 16) ∧
      s.params.program[s.hpc + 2]? = some 0x8000 ∧ s.params.program[s.hpc + 3]? = some 0x6000 ∧
      classify s.params.statusMap 0x08 = .start ∧ classify s.params.statusMap 0x40 = .slarAck ∧
      classify s.params.statusMap 0x58 = .drxNack := by
  refine ⟨stateInv (by decide), ?_⟩
  simp only [RingEmpty, Idle]
  decide

theorem witness_NextActionChoosesTheRequest :
    ¬ Idle { State.reset with stopp := true } ∧ Idle (tx (ring1 0x84)) ∧ ¬ RingEmpty (tx (ring1 0x84)).tx ∧
    (tx (ring1 0x84)).tx.buf.read (tx (ring1 0x84)).tx.tail = some 0x84 ∧
    (Idle (btr 1) ∧ RingEmpty (btr 1).tx ∧ (btr 1).btr = 1) ∧ (Idle (btr 2) ∧ RingEmpty (btr 2).tx ∧ 1 < (btr 2).btr) ∧
    (Idle (btr 0) ∧ RingEmpty (btr 0).tx ∧ (btr 0).btr = 0) := by
  simp only [RingEmpty, Idle]
  decide

/-- Both cases of the rows that issue at once (EV_START, EV_REP_START, EV_OTHER). -/
theorem witness_StartRowsTakeTheNextAction :
    Instr.evStart 0x08 ∈ [Instr.evStart 0x08, Instr.evRepStart 0x08] ∧ (tx (ring1 0x84)).req = .none ∧
    (tx (ring1 0x84)).stopp = false ∧
    ¬ (({ State.reset with req := .ack } : State).req = .none ∧ ({ State.reset with req := .ack } : State).stopp = false) := by
  decide

theorem witness_OtherStatusOnlyClears :
    State.reset.req = .none ∧ State.reset.stopp = false ∧
    ¬ (({ State.reset with stopp := true } : State).req = .none ∧ ({ State.reset with stopp := true } : State).stopp = false) := by
  decide

/-- The three cases of `SentCases`, for the address and data rows: AddressAckConsumesTheSlaByte,
WriteAddressNackDoesNotAbort, ReadAddressNackZeroesBtr and DataAckAndNackConsumeTheByte (R94-R97). -/
theorem witness_SentCases :
    RingEmpty State.reset.tx ∧
    (¬ RingEmpty (tx (ring1 0x85)).tx ∧ (tx (ring1 0x85)).req = .none ∧ (tx (ring1 0x85)).stopp = false) ∧
    (¬ RingEmpty ({ tx (ring1 0x85) with stopp := true } : State).tx ∧
      ¬ (({ tx (ring1 0x85) with stopp := true } : State).req = .none ∧
        ({ tx (ring1 0x85) with stopp := true } : State).stopp = false)) := by
  simp only [RingEmpty]
  decide

theorem witness_AddressAckConsumesTheSlaByte :
    Instr.evSlawAck 0x18 ∈ [Instr.evSlawAck 0x18, Instr.evSlarAck 0x18] ∧
    Instr.evSlarAck 0x40 ∈ [Instr.evSlawAck 0x40, Instr.evSlarAck 0x40] := by decide

theorem witness_DataAckAndNackConsumeTheByte :
    Instr.evDtxAck 0x28 ∈ [Instr.evDtxAck 0x28, Instr.evDtxNack 0x28] ∧
    Instr.evDtxNack 0x30 ∈ [Instr.evDtxAck 0x30, Instr.evDtxNack 0x30] := by decide

/-- The cases of R98: a full RX with BTR at its least, an empty one, a byte not expected. -/
theorem witness_ReceivedByteIsStoredAndAcknowledged :
    Instr.evDrxAck 0x50 ∈ [Instr.evDrxAck 0x50, Instr.evDrxNack 0x50] ∧
    (({ rx ringFull with btr := 1 } : State).btr ≠ 0 ∧ RingFull ({ rx ringFull with btr := 1 } : State).rx) ∧
    ((rx ringFull).btr = 0 ∧ (rx ringFull).req = .none ∧ (rx ringFull).stopp = false) ∧
    (¬ RingFull (btr 1).rx ∧ (btr 1).req = .none) ∧
    (¬ RingFull State.reset.rx ∧ ¬ (({ State.reset with req := .ack } : State).req = .none ∧
      ({ State.reset with req := .ack } : State).stopp = false)) := by
  simp only [RingFull]
  decide

theorem witness_SeqStepIssuesExactlyOneRequest :
    let s := pending 0x18 (tx (ring1 0x84))
    s.fault = none ∧ s.int = true ∧ nextWith (stepBy .seq s) (fun t => t.fault = none) = true := by decide

theorem witness_DrainingTxReleasesTheEngine :
    let s := pending 0x28 (tx (ring1 0x10))
    s.Inv ∧ s.fault = none ∧ ¬ RingEmpty s.tx ∧ s.btr = 0 ∧
      nextWith (stepBy .seq s) (fun t => decide (t.tx.head = t.tx.tail ∧ t.tx.last = .read)) = true := by
  refine ⟨stateInv (by decide), ?_⟩
  simp only [RingEmpty]
  decide

theorem witness_ReadAddressNackLetsEndRxProceed :
    let s := { tx (ring1 0x85) with btr := 5 }
    s.fault = none ∧ s.req = .none ∧ s.stopp = false ∧
      nextWith (exec (.evSlarNack 0x48) s) (fun t => decide
        (t.fault = none ∧ t.tx.head = t.tx.tail ∧ t.tx.last = .read ∧ t.hph = .zero)) = true := by decide

/-- P2's reception of three bytes, and the reception of one byte into one slot. -/
theorem witness_LastByteOfAReceptionIsNacked :
    let s := { pending 0x40 (tx (ring1 0x85)) with btr := 3 }
    let o := { pending 0x40 oneSlot with tx := ⟨[(0, 0x85)], 0, 0, .write⟩, btr := 1 }
    (s.Inv ∧ s.fault = none ∧ s.int = true ∧ classify s.params.statusMap s.hwstat = .slarAck ∧
      s.tx.count s.params.capacity = 1 ∧ 1 ≤ s.btr ∧
      [((0x50 : Byte), (0xAB : Byte)), (0x50, 0xCD), (0x58, 0xEF)].length ≤ s.btr ∧
      s.rx.count s.params.capacity + s.btr ≤ s.params.capacity ∧
      (∀ e ∈ [((0x50 : Byte), (0xAB : Byte)), (0x50, 0xCD), (0x58, 0xEF)],
        classify s.params.statusMap e.1 = .drxAck ∨ classify s.params.statusMap e.1 = .drxNack)) ∧
    (o.Inv ∧ o.fault = none ∧ o.int = true ∧ classify o.params.statusMap o.hwstat = .slarAck ∧
      o.tx.count o.params.capacity = 1 ∧ 1 ≤ o.btr ∧ [((0x58 : Byte), (0x01 : Byte))].length ≤ o.btr ∧
      o.rx.count o.params.capacity + o.btr ≤ o.params.capacity ∧
      (∀ e ∈ [((0x58 : Byte), (0x01 : Byte))],
        classify o.params.statusMap e.1 = .drxAck ∨ classify o.params.statusMap e.1 = .drxNack)) := by
  refine ⟨⟨stateInv (by decide), ?_⟩, ⟨stateInv (by decide), ?_⟩⟩ <;>
    simp only [List.mem_cons, List.not_mem_nil, or_false, forall_eq_or_imp, forall_eq] <;> decide

/-- P1's two queued bytes after the START was sent. -/
theorem witness_QueuedBytesAreSentInOrder :
    let s := pending 0x08 (tx (ring2 0x84 0x10))
    s.Inv ∧ s.fault = none ∧ s.int = true ∧ s.btr = 0 ∧ classify s.params.statusMap s.hwstat = .start ∧
      s.tx.contents .tx s.params.capacity = [0x84, 0x10] ∧
      [((0x18 : Byte), (0 : Byte)), (0x30, 0)].length = [(0x84 : Byte), 0x10].length ∧ [(0x84 : Byte), 0x10] ≠ [] ∧
      (∀ e ∈ [((0x18 : Byte), (0 : Byte)), (0x30, 0)],
        classify s.params.statusMap e.1 = .slawAck ∨ classify s.params.statusMap e.1 = .slawNack ∨
        classify s.params.statusMap e.1 = .dtxAck ∨ classify s.params.statusMap e.1 = .dtxNack) := by
  exact ⟨stateInv (by decide), by decide, by decide, by decide, by decide, rfl, by decide, by decide,
    by simp only [List.mem_cons, List.not_mem_nil, or_false, forall_eq_or_imp, forall_eq]; decide⟩

theorem witness_LateRequestStartsNothing :
    let s := program [0x5001, 0x8000]
    s.fault = none ∧ Idle s ∧ s.hph = .zero ∧ s.btr = 0 ∧ (1 : Byte) ≠ 0 ∧ 8 ≤ s.params.btrWidth ∧
      s.params.program[s.hpc]? = some (0x5000 ||| (1 : Byte).setWidth 16) ∧
      s.params.program[s.hpc + 1]? = some 0x8000 := by
  simp only [Idle]
  decide

/-- P8 after its arbitration loss, the same with a begin command waiting, and the same in a read. -/
theorem witness_OtherStatusStallsTheTransaction :
    let s := pending 0x38 { program [0x3000] with tx := ring2 0x84 0x10 }
    let r := pending 0x38 { program [0x8000] with btr := 1 }
    let b := pending 0x38 { program [0x4042] with tx := ring1 0x84 }
    (s.Inv ∧ s.fault = none ∧ s.int = true ∧ s.hph = .zero ∧ classify s.params.statusMap s.hwstat = .other ∧
      s.params.program[s.hpc]? = some 0x3000 ∧ ¬ RingEmpty s.tx) ∧
    (r.Inv ∧ r.fault = none ∧ r.int = true ∧ r.hph = .zero ∧ classify r.params.statusMap r.hwstat = .other ∧
      r.params.program[r.hpc]? = some 0x8000 ∧ r.btr ≠ 0) ∧
    (b.Inv ∧ b.fault = none ∧ b.int = true ∧ b.hph = .zero ∧ classify b.params.statusMap b.hwstat = .other ∧
      b.params.program[b.hpc]? = some (0x4000 ||| (0x42 : Addr).setWidth 16) ∧ ¬ RingEmpty b.tx) := by
  refine ⟨⟨stateInv (by decide), ?_⟩, ⟨stateInv (by decide), ?_⟩, ⟨stateInv (by decide), ?_⟩⟩ <;> simp only [RingEmpty] <;> decide

theorem witness_FaultIsPreciseAndSticky :
    (program [0x0000]).fault = none ∧
    nextWith (stepBy .host (program [0x0000])) (fun t => t.fault = some ⟨.illegalCommand, .host, 0⟩) = true ∧
    (pending 0x18 State.reset).fault = none ∧
    nextWith (stepBy .seq (pending 0x18 State.reset)) (fun t => t.fault = some ⟨.rbUnderflow, .seq, 0⟩) = true := by decide

theorem witness_EachAgentRaisesOnlyItsFaults :
    ((program [0x0000]).Inv ∧ (program [0x0000]).fault = none ∧
      nextWith (stepBy .host (program [0x0000])) (fun t => t.fault = some ⟨.illegalCommand, .host, 0⟩) = true) ∧
    ((pending 0x18 State.reset).Inv ∧ (pending 0x18 State.reset).fault = none ∧
      nextWith (stepBy .seq (pending 0x18 State.reset)) (fun t => t.fault = some ⟨.rbUnderflow, .seq, 0⟩) = true) :=
  ⟨⟨stateInv (by decide), by decide, by decide⟩, ⟨stateInv (by decide), by decide, by decide⟩⟩

/-- On one slot, where no index moves, only the tag tells a push from a pop. -/
theorem witness_EachElementHasItsWriters_oneSlot :
    nextWith (stepBy .host { oneSlot with params := { oneSlot.params with program := [0x1042] } })
      (fun t => decide (t.tx.head = 0 ∧ t.tx.tail = 0 ∧ t.tx.last = .write)) = true ∧
    nextWith (stepBy .seq (pending 0x18 { oneSlot with tx := ⟨[(0, 0x84)], 0, 0, .write⟩ }))
      (fun t => decide (t.tx.head = 0 ∧ t.tx.tail = 0 ∧ t.tx.last = .read)) = true := by decide

theorem witness_EachElementHasItsWriters :
    nextWith (stepBy .host (program [0x1042])) (fun t => t.tx.head = 1) = true ∧
    nextWith (stepBy .seq (pending 0x18 (tx (ring1 0x84)))) (fun t => t.tx.tail = 1) = true ∧
    nextWith (stepBy .engDrop { State.reset with req := .clear }) (fun t => t.req = .none) = true := by decide

theorem witness_HostPositionAdvancesByOne :
    nextWith (stepBy .host (program [0x6000])) (fun t => t.hpc = 1 ∧ t.out = [0]) = true ∧
    nextWith (stepBy .seq (pending 0x38 State.reset)) (fun t => t.trace = [⟨.seq, .clear, 0⟩]) = true := by decide

theorem witness_StorageChangesOnlyAtTheHead :
    (nextWith (exec (.write 7) State.reset) (fun t => t.tx.buf.read 0 = some 7) = true ∧ (1 : Nat) ≠ State.reset.tx.head) ∧
    nextWith (exec .read (rx (ring1 7))) (fun t => t.rx.tail = 1) = true ∧
    (nextWith (exec (decodeEvent defaultStatusMap 0x50) (btr 1)) (fun t => t.rx.buf.read 0 = some 0) = true ∧
      (1 : Nat) ≠ (btr 1).rx.head) ∧
    (classify defaultStatusMap 0x38 ≠ .drxAck ∧ classify defaultStatusMap 0x38 ≠ .drxNack) := by decide

/-- A conformant engine answers the START of P1. -/
theorem witness_ConformantEngineNeverRaisesOther :
    let s := { State.reset with req := .start }
    conformantRun .idle s [.engAnswer 0x08 0, .seq] = true ∧
    nextWith (runMoves [.engAnswer 0x08 0] s) (fun t => t.int) = true ∧ s.int = false := by decide

/-- Reset with another capacity and program, DATA not 0; a HOST step and an engine answer; the first answer of P1. -/
theorem witness_ResetLeavesOnlyHostAStep :
    let s := { program [0x1042] with data := 0x77 }
    (s.atReset ∧ s.params.program[0]? = some 0x1042 ∧ Move.engStop ≠ .host) ∧
    nextWith (stepBy .host s) (fun t => decide (s.req = .none ∧ s.stopp = false ∧ t.req ≠ .none)) = true ∧
    nextWith (stepBy (.engAnswer 0x08 0) { s with req := .start }) (fun t => decide (s.int = false ∧ t.int = true)) = true ∧
    decodeCommand 0x1042 = .beginTx 0x42 ∧ engConformant s [.host, .engAnswer 0x08 0, .seq] :=
  ⟨⟨rfl, rfl, nofun⟩, by decide, by decide, by decide, rfl, by decide⟩

/-- From reset, E10: a CONTINUE with no transaction is never answered by a conformant engine. -/
theorem test_engine_conformant_from_reset :
    conformantRun EngineMode.reset (program [0x2010]) [.host, .engAnswer 0x28 0] = false ∧
    conformantRun EngineMode.reset (program [0x1042]) [.host, .engAnswer 0x10 0] = false := by decide

end Sys2Proof.Tests
end

section
/-!
PROOFS. Who writes what (10_state.md R17, R20, 20_memory.md R47): a producer's and a consumer's side of a ring buffer, what
a step of each agent leaves to the other two, and the partition itself.
-/

namespace Sys2Proof.Machine

open Sys2Proof

/-! ### The two sides of a ring buffer -/

/-- `r'` is `r` after a producer alone: the consumer's index stands, and the tag is as before or tells of a push. -/
structure Ring.Produced (r r' : Ring) : Prop where
  tail : r'.tail = r.tail
  last : r'.last = r.last ∨ r'.last = .write

/-- `r'` is `r` after a consumer alone: the producer's index and the storage stand, and the tag is as before or tells of
a pop. -/
structure Ring.Consumed (r r' : Ring) : Prop where
  head : r'.head = r.head
  buf  : r'.buf = r.buf
  last : r'.last = r.last ∨ r'.last = .read

theorem Ring.Produced.refl (r : Ring) : r.Produced r := ⟨rfl, .inl rfl⟩
theorem Ring.Consumed.refl (r : Ring) : r.Consumed r := ⟨rfl, rfl, .inl rfl⟩

theorem State.txPushed_produced (s : State) (b : Byte) : s.tx.Produced (s.txPushed b) := ⟨rfl, .inr rfl⟩
theorem State.txPopped_consumed (s : State) : s.tx.Consumed s.txPopped := ⟨rfl, rfl, .inr rfl⟩
theorem State.rxPushed_produced (s : State) (b : Byte) : s.rx.Produced (s.rxPushed b) := ⟨rfl, .inr rfl⟩
theorem State.rxPopped_consumed (s : State) : s.rx.Consumed s.rxPopped := ⟨rfl, rfl, .inr rfl⟩

/-! ### HOST -/

/-- What HOST may do to the elements it shares (R17, R20): it produces into TX, consumes from RX and raises BTR. -/
structure HostWrites (s t : State) : Prop where
  params : t.params = s.params
  tx     : s.tx.Produced t.tx
  rx     : s.rx.Consumed t.rx
  btr    : s.btr ≤ t.btr
  status : t.status = s.status
  hwstat : t.hwstat = s.hwstat
  int    : t.int = s.int

theorem HostWrites.refl (s : State) : HostWrites s s :=
  ⟨rfl, .refl _, .refl _, Nat.le_refl _, rfl, rfl, rfl⟩

theorem HostStep.hostWrites {s t : State} {i : Instr} (h : HostStep s i t) : HostWrites s t := by
  cases h with
  | begins _ b | queues b | kicks b => exact { HostWrites.refl s with tx := s.txPushed_produced b }
  | takes => exact { HostWrites.refl s with rx := s.rxPopped_consumed }
  | requests n => exact { HostWrites.refl s with btr := Nat.le_add_right s.btr n.toNat }
  | waits | collides | overflows | illegal | stops | endsTx | endsRx | reports => exact { HostWrites.refl s with }

/-! ### SEQ -/

/-- What SEQ may do to the elements it shares (R17, R20): it consumes from TX, produces into RX and lowers BTR. -/
structure SeqWrites (s t : State) : Prop where
  params : t.params = s.params
  tx     : s.tx.Consumed t.tx
  rx     : s.rx.Produced t.rx
  btr    : t.btr ≤ s.btr
  hwstat : t.hwstat = s.hwstat
  stopp  : t.stopp = s.stopp
  hpc    : t.hpc = s.hpc
  hph    : t.hph = s.hph
  out    : t.out = s.out

theorem SeqWrites.refl (s : State) : SeqWrites s s :=
  ⟨rfl, .refl _, .refl _, Nat.le_refl _, rfl, rfl, rfl, rfl, rfl⟩

theorem SeqStep.seqWrites {s t : State} {cls : EventClass} {c : Byte} (h : SeqStep s cls c t) : SeqWrites s t := by
  cases h with
  | sent n a d _ _ _ hn _ _ hstop =>
    have hbtr : n ≤ s.btr := by
      rw [hn]
      split
      · exact Nat.zero_le _
      · exact Nat.le_refl _
    exact { SeqWrites.refl s with tx := s.txPopped_consumed, btr := hbtr, stopp := hstop.symm }
  | stores _ _ _ _ hstop =>
    exact { SeqWrites.refl s with rx := s.rxPushed_produced s.data, btr := Nat.sub_le s.btr 1, stopp := hstop.symm }
  | starts _ _ _ _ hstop | discards _ _ _ hstop | clears _ _ hstop =>
    exact { SeqWrites.refl s with stopp := hstop.symm }
  | collides | underflows | overflows => exact { SeqWrites.refl s with }

/-! ### ENG -/

/-- What a move of ENG leaves as it was: the elements R17 gives to HOST and SEQ alone, TRACE, and FAULT, as ENG raises none
(R112). -/
structure EngWrites (s t : State) : Prop where
  params : t.params = s.params
  tx     : t.tx = s.tx
  rx     : t.rx = s.rx
  btr    : t.btr = s.btr
  status : t.status = s.status
  hpc    : t.hpc = s.hpc
  hph    : t.hph = s.hph
  out    : t.out = s.out
  trace  : t.trace = s.trace
  fault  : t.fault = s.fault

theorem EngWrites.refl (s : State) : EngWrites s s := ⟨rfl, rfl, rfl, rfl, rfl, rfl, rfl, rfl, rfl, rfl⟩

theorem State.engineAnswer_engWrites (s : State) (c d : Byte) : EngWrites s (s.engineAnswer c d) :=
  { EngWrites.refl s with }

theorem State.engineDrop_engWrites (s : State) : EngWrites s s.engineDrop := { EngWrites.refl s with }

theorem State.engineStop_engWrites (s : State) : EngWrites s s.engineStop := { EngWrites.refl s with }

/-! ### Moves -/

theorem MoveStep.hostWrites {s t : State} (h : MoveStep s .host t) : HostWrites s t := by
  cases h with
  | none => exact .refl s
  | host _ _ _ _ _ hs => exact hs.hostWrites

theorem MoveStep.seqWrites {s t : State} (h : MoveStep s .seq t) : SeqWrites s t := by
  cases h with
  | none => exact .refl s
  | seq _ _ _ _ hs => exact hs.seqWrites

theorem MoveStep.engWrites {mv : Move} {s t : State} (h : MoveStep s mv t) (hhost : mv ≠ .host) (hseq : mv ≠ .seq) :
    EngWrites s t := by
  cases h with
  | none => exact .refl s
  | host => exact absurd rfl hhost
  | seq => exact absurd rfl hseq
  | answer c d => exact s.engineAnswer_engWrites c d
  | drop => exact s.engineDrop_engWrites
  | stop => exact s.engineStop_engWrites

theorem MoveStep.params {mv : Move} {s t : State} (h : MoveStep s mv t) : t.params = s.params := by
  by_cases hhost : mv = .host
  · subst hhost; exact h.hostWrites.params
  · by_cases hseq : mv = .seq
    · subst hseq; exact h.seqWrites.params
    · exact (h.engWrites hhost hseq).params

/-- Settles O56: a move is HOST's, SEQ's or ENG's, and each agent's step writes only what `HostWrites`, `SeqWrites` and
`EngWrites` allow it. -/
theorem eachElementHasItsWriters : Obligations.EachElementHasItsWriters := by
  unfold Obligations.EachElementHasItsWriters
  intro mv s t h
  obtain ⟨-, hm⟩ := stepBy_next h
  refine ⟨hm.params, ?hostTags, ?seqTags, ?host, ?seq, ?eng⟩
  case hostTags =>
    rintro rfl
    exact ⟨hm.hostWrites.tx.last, hm.hostWrites.rx.last⟩
  case seqTags =>
    rintro rfl
    exact ⟨hm.seqWrites.tx.last, hm.seqWrites.rx.last⟩
  case host =>
    rintro rfl
    obtain ⟨-, htx, hrx, hbtr, hstatus, hhwstat, hint⟩ := hm.hostWrites
    exact ⟨htx.tail, hrx.head, hrx.buf, hstatus, hhwstat, hint, hbtr⟩
  case seq =>
    rintro rfl
    obtain ⟨-, htx, hrx, hbtr, hhwstat, hstopp, hhpc, hhph, hout⟩ := hm.seqWrites
    exact ⟨htx.head, htx.buf, hrx.tail, hhwstat, hhpc, hhph, hout, hstopp, hbtr⟩
  case eng =>
    rintro ⟨hhost, hseq⟩
    obtain ⟨-, htx, hrx, hbtr, hstatus, hhpc, hhph, hout, htrace, hfault⟩ := hm.engWrites hhost hseq
    exact ⟨htx, hrx, hbtr, hstatus, hhpc, hhph, hout, htrace, hfault⟩

end Sys2Proof.Machine
end

section
/-!
PROOFS. The words of the encoding (30_encoding.md): the SLA byte bit by bit (R58), and the illegal words (R60) as those the
decoder rejects and HOST faults on.
-/

namespace Sys2Proof

/-! ### The conditions of R60, by the form of the command -/

/-- An address command (R54) is illegal by `CW[7]`. -/
theorem isIllegalWord_of_addressed {w : Word} (hrsv : cwRsv w = 0)
    (hop : (cwOp w).toNat = 0x1 ∨ (cwOp w).toNat = 0x4) : isIllegalWord w = cwBit7 w := by
  rcases hop with hop | hop <;> simp [isIllegalWord, hrsv, hop]

/-- A command with a byte operand (R55, R56) is never illegal. -/
theorem isIllegalWord_of_byte {w : Word} (hrsv : cwRsv w = 0)
    (hop : (cwOp w).toNat = 0x2 ∨ (cwOp w).toNat = 0x5) : isIllegalWord w = false := by
  rcases hop with hop | hop <;> simp [isIllegalWord, hrsv, hop]

/-- A command without operand (R57) is illegal by `ARG`. -/
theorem isIllegalWord_of_bare {w : Word} (hrsv : cwRsv w = 0)
    (hop : (cwOp w).toNat = 0x3 ∨ 0x6 ≤ (cwOp w).toNat ∧ (cwOp w).toNat ≤ 0xA) :
    isIllegalWord w = decide (cwArg w ≠ 0) := by
  have hbare : (cwOp w).toNat = 0x3 ∨ (cwOp w).toNat = 0x6 ∨ (cwOp w).toNat = 0x7 ∨ (cwOp w).toNat = 0x8 ∨
      (cwOp w).toNat = 0x9 ∨ (cwOp w).toNat = 0xA := by omega
  rcases hbare with hop | hop | hop | hop | hop | hop <;> simp [isIllegalWord, hrsv, hop]

/-- An opcode that names no command is illegal. -/
theorem isIllegalWord_of_unused {w : Word} (hop : (cwOp w).toNat = 0 ∨ 0xB ≤ (cwOp w).toNat) : isIllegalWord w = true := by
  simp only [isIllegalWord, Bool.or_eq_true, decide_eq_true_eq]
  exact .inl (.inl (.inl hop))

theorem isIllegalWord_of_rsv {w : Word} (hrsv : cwRsv w ≠ 0) : isIllegalWord w = true := by
  simp only [isIllegalWord, Bool.or_eq_true, decide_eq_true_eq]
  exact .inl (.inl (.inr hrsv))

/-! ### What the decoder rejects -/

theorem decodeAddressed_eq_illegal_iff (w : Word) {i : Addr → Instr} (hi : ∀ a, i a ≠ .illegal w) :
    decodeAddressed w i = .illegal w ↔ cwBit7 w = true := by
  simp [decodeAddressed, hi]

theorem decodeBare_eq_illegal_iff (w : Word) {i : Instr} (hi : i ≠ .illegal w) :
    decodeBare w i = .illegal w ↔ cwArg w ≠ 0 := by
  simp [decodeBare, hi]

/-- The decoder rejects exactly the words R60 calls illegal, form by form. -/
theorem decodeCommand_eq_illegal_iff (w : Word) : decodeCommand w = .illegal w ↔ isIllegalWord w = true := by
  unfold decodeCommand
  split
  case isTrue hrsv => exact iff_of_true rfl (isIllegalWord_of_rsv hrsv)
  case isFalse hrsv =>
    replace hrsv : cwRsv w = 0 := not_not.1 hrsv
    split
    case h_1 hop | h_4 hop =>
      rw [isIllegalWord_of_addressed hrsv (by omega)]
      exact decodeAddressed_eq_illegal_iff w nofun
    case h_2 hop | h_5 hop =>
      rw [isIllegalWord_of_byte hrsv (by omega)]
      exact iff_of_false nofun nofun
    case h_11 =>
      have hunused : (cwOp w).toNat = 0 ∨ 0xB ≤ (cwOp w).toNat := by
        simp only [imp_false] at *
        omega
      exact iff_of_true rfl (isIllegalWord_of_unused hunused)
    all_goals
      rw [isIllegalWord_of_bare hrsv (by omega), decide_eq_true_eq]
      exact decodeBare_eq_illegal_iff w nofun

end Sys2Proof

namespace Sys2Proof.Machine

open Sys2Proof Sys2Proof.Spec

/-! ### The SLA byte -/

theorem slaByte_write (a : Addr) : slaByte a .write = a ++ (0 : BitVec 1) := by
  rw [BitVec.append_def, BitVec.shiftLeftZeroExtend_eq]
  rfl

theorem slaByte_read (a : Addr) : slaByte a .read = a ++ (1 : BitVec 1) := by
  rw [BitVec.append_def, BitVec.shiftLeftZeroExtend_eq]
  rfl

/-- Settles O5: the SLA byte is the address followed by the direction bit. -/
theorem slaByteHoldsAddressAndDirection : Obligations.SlaByteHoldsAddressAndDirection := by
  unfold Obligations.SlaByteHoldsAddressAndDirection
  intro a
  rw [slaByte_write, slaByte_read]
  exact ⟨BitVec.extractLsb'_append_eq_left, BitVec.getLsbD_append, BitVec.extractLsb'_append_eq_left,
    BitVec.getLsbD_append⟩

/-! ### HOST's step at an illegal word -/

theorem exec_illegal (w : Word) (s : State) : exec (.illegal w) s = .next (faulted s .host .illegalCommand) := rfl

/-- Settles O36: HOST's step at an illegal word runs what the decoder rejects, which raises the fault. -/
theorem illegalWordRaisesIllegalCommand : Obligations.IllegalWordRaisesIllegalCommand := by
  unfold Obligations.IllegalWordRaisesIllegalCommand
  refine ⟨decodeCommand_eq_illegal_iff, exec_illegal, ?_⟩
  intro w s hfault hfetch hillegal
  calc stepBy .host s = exec (decodeCommand w) s := stepBy_host hfault hfetch
    _ = exec (.illegal w) s := by rw [(decodeCommand_eq_illegal_iff w).2 hillegal]
    _ = .next (faulted s .host .illegalCommand) := exec_illegal w s

end Sys2Proof.Machine
end

section
/-!
PROOFS. The ring buffer (41_ring_buffer.md): its flags (R67, R68), its count (R69), its primitives (R70 to R72), and
pushes in a row up to the capacity (R74).
-/

namespace Sys2Proof.Machine

open Sys2Proof Sys2Proof.Spec

/-! ### Flags and count -/

/-- The flag against its rule (R67). -/
theorem Ring.isEmpty_iff (r : Ring) : r.isEmpty = true ↔ RingEmpty r := r.isEmpty_true

/-- The flag against its rule (R68). -/
theorem Ring.isFull_iff (r : Ring) : r.isFull = true ↔ RingFull r := r.isFull_true

/-- Where the indexes meet, the tag says which of the two the ring is (R73 (a)). -/
theorem Ring.empty_or_full_of_head_eq_tail {r : Ring} (h : r.head = r.tail) : RingEmpty r ∨ RingFull r := by
  cases hlast : r.last with
  | read => exact .inl ⟨h, hlast⟩
  | write => exact .inr ⟨h, hlast⟩

theorem Ring.not_full_of_empty {r : Ring} (h : RingEmpty r) : ¬ RingFull r :=
  fun hfull => nomatch h.2.symm.trans hfull.2

theorem Ring.count_of_full (c : Nat) {r : Ring} (h : RingFull r) : r.count c = c := by
  obtain ⟨hmeet, hlast⟩ := h
  simp [Ring.count, hmeet, hlast]

theorem Ring.count_of_empty (c : Nat) {r : Ring} (h : RingEmpty r) : r.count c = 0 := by
  obtain ⟨hmeet, hlast⟩ := h
  simp [Ring.count, hmeet, hlast]

theorem Ring.count_of_head_ne_tail (c : Nat) {r : Ring} (h : r.head ≠ r.tail) : r.count c = (r.head + c - r.tail) % c :=
  if_neg h

/-- Settles O23: each flag and each case of the count by its rule. -/
theorem emptyFullAndCountFollowTheTag : Obligations.EmptyFullAndCountFollowTheTag := by
  unfold Obligations.EmptyFullAndCountFollowTheTag
  intro c r
  rw [r.isEmpty_iff, r.isFull_iff]
  exact ⟨.rfl, .rfl, fun h => Ring.not_full_of_empty h.1 h.2, Ring.empty_or_full_of_head_eq_tail, Ring.count_of_full c,
    Ring.count_of_empty c, Ring.count_of_head_ne_tail c⟩

/-! ### Primitives -/

theorem Ring.pushBack_of_full (c : Nat) {r : Ring} (b : Byte) (h : RingFull r) : r.pushBack c b = .error .rbOverflow :=
  if_pos (r.isFull_iff.2 h)

theorem Ring.pushBack_of_not_full (c : Nat) {r : Ring} (b : Byte) (h : ¬ RingFull r) :
    r.pushBack c b = .ok (pushed c r b) :=
  if_neg (mt r.isFull_iff.1 h)

theorem Ring.popFront_of_empty (w : Buffer) (c : Nat) {r : Ring} (h : RingEmpty r) :
    r.popFront w c = .error .rbUnderflow :=
  if_pos (r.isEmpty_iff.2 h)

theorem Ring.popFront_of_not_empty (w : Buffer) (c : Nat) {r : Ring} (h : ¬ RingEmpty r) :
    r.popFront w c = .ok (r.slot w r.tail, popped c r) :=
  if_neg (mt r.isEmpty_iff.1 h)

theorem Ring.peekFront_of_empty (w : Buffer) {r : Ring} (h : RingEmpty r) : r.peekFront w = .error .rbUnderflow :=
  if_pos (r.isEmpty_iff.2 h)

theorem Ring.peekFront_of_not_empty (w : Buffer) {r : Ring} (h : ¬ RingEmpty r) :
    r.peekFront w = .ok (r.slot w r.tail) :=
  if_neg (mt r.isEmpty_iff.1 h)

/-- A slot that has been written holds that byte, whichever buffer it belongs to. -/
theorem Ring.slot_of_read (w : Buffer) {r : Ring} {i : Nat} {v : Byte} (h : r.buf.read i = some v) : r.slot w i = v := by
  simp [Ring.slot, h]

/-- Settles O24: each primitive on a full, an empty and another ring. -/
theorem ringPrimitivesFollowTheirRules : Obligations.RingPrimitivesFollowTheirRules := by
  unfold Obligations.RingPrimitivesFollowTheirRules
  intro w c r b
  refine ⟨Ring.pushBack_of_full c b, Ring.pushBack_of_not_full c b,
    fun h => ⟨Ring.popFront_of_empty w c h, Ring.peekFront_of_empty w h⟩, fun v h hv => ?_⟩
  rw [← Ring.slot_of_read w hv]
  exact ⟨Ring.popFront_of_not_empty w c h, Ring.peekFront_of_not_empty w h⟩

/-! ### The indexes of a ring -/

/-- Both indexes stand inside the buffer (R42). -/
structure Ring.InRange (c : Nat) (r : Ring) : Prop where
  headLt : r.head < c
  tailLt : r.tail < c

theorem Ring.Inv.inRange {c : Nat} {r : Ring} (h : r.Inv c) : r.InRange c := ⟨h.headLt, h.tailLt⟩

theorem Ring.InRange.pushed {c : Nat} {r : Ring} (h : r.InRange c) (b : Byte) : (pushed c r b).InRange c :=
  ⟨Nat.mod_lt _ (Nat.zero_lt_of_lt h.headLt), h.tailLt⟩

theorem Ring.InRange.popped {c : Nat} {r : Ring} (h : r.InRange c) : (popped c r).InRange c :=
  ⟨h.headLt, Nat.mod_lt _ (Nat.zero_lt_of_lt h.tailLt)⟩

theorem Ring.not_empty_pushed (c : Nat) (r : Ring) (b : Byte) : ¬ RingEmpty (pushed c r b) := fun h => nomatch h.2

theorem Ring.not_full_popped (c : Nat) (r : Ring) : ¬ RingFull (popped c r) := fun h => nomatch h.2

/-- The next index, with the remainder of R70 and R71 read as a wrap to slot 0. -/
theorem nextIndex_eq_ite {c i : Nat} (h : i < c) : (i + 1) % c = if i + 1 = c then 0 else i + 1 := by
  split
  case isTrue hwrap => rw [hwrap, Nat.mod_self]
  case isFalse hwrap => exact Nat.mod_eq_of_lt (by omega)

/-! ### How pushes and pops move the count

The remainder of R69 stands for the two ways the queued bytes can lie, `tail` before `head` or around the end. Where the
indexes meet, the first way gives the count of an empty ring and the second that of a full one. -/

/-- The count between two different indexes. -/
theorem Ring.InRange.count_of_head_ne_tail {c : Nat} {r : Ring} (h : r.InRange c) (hne : r.head ≠ r.tail) :
    r.count c = if r.tail < r.head then r.head - r.tail else r.head + c - r.tail := by
  obtain ⟨hhead, htail⟩ := h
  rw [Ring.count_of_head_ne_tail c hne]
  split
  · rw [Nat.sub_add_comm (by omega), Nat.add_mod_right]
    exact Nat.mod_eq_of_lt (by omega)
  · exact Nat.mod_eq_of_lt (by omega)

theorem Ring.InRange.count_of_not_full {c : Nat} {r : Ring} (h : r.InRange c) (hfull : ¬ RingFull r) :
    r.count c = if r.tail ≤ r.head then r.head - r.tail else r.head + c - r.tail := by
  by_cases hmeet : r.head = r.tail
  · rw [Ring.count_of_empty c ((Ring.empty_or_full_of_head_eq_tail hmeet).resolve_right hfull)]
    simp [hmeet]
  · rw [h.count_of_head_ne_tail hmeet]
    exact if_congr (by omega) rfl rfl

theorem Ring.InRange.count_of_not_empty {c : Nat} {r : Ring} (h : r.InRange c) (hempty : ¬ RingEmpty r) :
    r.count c = if r.tail < r.head then r.head - r.tail else r.head + c - r.tail := by
  by_cases hmeet : r.head = r.tail
  · rw [Ring.count_of_full c ((Ring.empty_or_full_of_head_eq_tail hmeet).resolve_left hempty)]
    simp [hmeet]
  · exact h.count_of_head_ne_tail hmeet

/-- In range, a ring is full exactly when it holds `c` bytes. -/
theorem Ring.InRange.full_iff_count {c : Nat} {r : Ring} (h : r.InRange c) : RingFull r ↔ r.count c = c := by
  refine ⟨Ring.count_of_full c, fun hcount => by_contra fun hfull => ?_⟩
  rw [h.count_of_not_full hfull] at hcount
  obtain ⟨hhead, htail⟩ := h
  split at hcount <;> omega

theorem Ring.InRange.count_pushed {c : Nat} {r : Ring} (h : r.InRange c) (b : Byte) (hfull : ¬ RingFull r) :
    (Spec.pushed c r b).count c = r.count c + 1 := by
  rw [(h.pushed b).count_of_not_empty (r.not_empty_pushed c b), h.count_of_not_full hfull]
  obtain ⟨hhead, htail⟩ := h
  simp only [Spec.pushed, nextIndex_eq_ite hhead]
  split_ifs <;> omega

theorem Ring.InRange.count_popped {c : Nat} {r : Ring} (h : r.InRange c) (hempty : ¬ RingEmpty r) :
    (Spec.popped c r).count c = r.count c - 1 := by
  rw [h.popped.count_of_not_full (r.not_full_popped c), h.count_of_not_empty hempty]
  obtain ⟨hhead, htail⟩ := h
  simp only [Spec.popped, nextIndex_eq_ite htail]
  split_ifs <;> omega

/-! ### Pushes in a row -/

/-- As long as there is room for all the bytes, no push of a row faults, and each one counts. -/
theorem pushAll_of_room {c : Nat} {bs : List Byte} {r : Ring} (h : r.InRange c) (hroom : r.count c + bs.length ≤ c) :
    ∃ r', pushAll c bs r = .ok r' ∧ r'.InRange c ∧ r'.count c = r.count c + bs.length := by
  induction bs generalizing r with
  | nil => exact ⟨r, rfl, h, rfl⟩
  | cons b bs ih =>
    rw [List.length_cons] at hroom ⊢
    have hfull : ¬ RingFull r := by
      rw [h.full_iff_count]
      omega
    have hcount := h.count_pushed b hfull
    obtain ⟨r', hpush, hr', hcount'⟩ := ih (h.pushed b) (by omega)
    refine ⟨r', ?_, hr', by omega⟩
    rw [pushAll, Ring.pushBack_of_not_full c b hfull]
    exact hpush

/-- Settles O25: `c` pushes bring the count from `0` to `c`, which is the full ring, and the pop takes one off. -/
theorem capacityPushesFillTheRing : Obligations.CapacityPushesFillTheRing := by
  unfold Obligations.CapacityPushesFillTheRing
  intro w c r bs hinv hempty hlength
  have hzero : r.count c = 0 := Ring.count_of_empty c hempty
  obtain ⟨r', hpush, hr', hcount⟩ := pushAll_of_room (bs := bs) hinv.inRange (by omega)
  have hc : r'.count c = c := by omega
  have hfull : RingFull r' := hr'.full_iff_count.2 hc
  have hne : ¬ RingEmpty r' := fun he => Ring.not_full_of_empty he hfull
  refine ⟨r', hpush, hfull.1, hfull, _, _, Ring.popFront_of_not_empty w c hne, r'.not_full_popped c, ?_⟩
  rw [hr'.count_popped hne, hc]

end Sys2Proof.Machine
end

section
/-!
PROOFS. The host commands (42_host_commands.md): no move of another agent takes a guard away (R78), and the outcome of each
command that does not wait (R83 to R85, R87, R88).
-/

namespace Sys2Proof.Machine

open Sys2Proof Sys2Proof.Spec

/-! ### What the other agents leave a guard -/

/-- A pop does not fill a ring. -/
theorem State.txPopped_not_full (s : State) : s.txPopped.isFull = false :=
  s.txPopped.isFull_false.2 fun h => nomatch h.2

/-- SEQ leaves TX alone, or takes the front byte of a TX that has one. -/
theorem SeqStep.tx_eq {s t : State} {cls : EventClass} {c : Byte} (h : SeqStep s cls c t) :
    t.tx = s.tx ∨ (s.tx.isEmpty = false ∧ t.tx = s.txPopped) := by
  cases h with
  | sent _ _ _ _ _ _ _ hbyte => exact .inr ⟨hbyte, rfl⟩
  | collides | underflows | overflows | starts | stores | discards | clears => exact .inl rfl

/-- What the guards of the host commands read (R79 to R88), and which way it may change between two steps of HOST: what one
of them waits for does not go away. -/
structure KeepsGuards (s t : State) : Prop where
  txEmpty : s.tx.isEmpty = true → t.tx.isEmpty = true
  txRoom  : s.tx.isFull = false → t.tx.isFull = false
  btr     : t.btr ≤ s.btr
  stopp   : s.stopp = false → t.stopp = false
  hph     : t.hph = s.hph

theorem KeepsGuards.refl (s : State) : KeepsGuards s s := ⟨id, id, Nat.le_refl _, id, rfl⟩

theorem SeqStep.keepsGuards {s t : State} {cls : EventClass} {c : Byte} (h : SeqStep s cls c t) : KeepsGuards s t := by
  have hw := h.seqWrites
  refine ⟨fun hempty => ?txEmpty, fun hroom => ?txRoom, hw.btr, hw.stopp.trans, hw.hph⟩
  case txEmpty =>
    obtain htx | ⟨hbyte, -⟩ := h.tx_eq
    · rwa [htx]
    · exact absurd hempty (Bool.eq_false_iff.1 hbyte)
  case txRoom =>
    obtain htx | ⟨-, htx⟩ := h.tx_eq
    · rwa [htx]
    · rw [htx, s.txPopped_not_full]

/-- SEQ may pop TX and lower BTR, ENG may only complete the STOP. -/
theorem MoveStep.keepsGuards {mv : Move} {s t : State} (h : MoveStep s mv t) (hhost : mv ≠ .host) : KeepsGuards s t := by
  cases h with
  | host => exact absurd rfl hhost
  | seq _ _ _ _ hs => exact hs.keepsGuards
  | none | answer | drop => exact { KeepsGuards.refl s with }
  | stop => exact { KeepsGuards.refl s with stopp := fun _ => rfl }

/-- Each guard, by what it reads; one that reads nothing is true in every state. -/
theorem KeepsGuards.hostGuard {s t : State} (h : KeepsGuards s t) (i : Instr) (hi : hostGuard i s = true) :
    hostGuard i t = true := by
  cases i with
  | beginTx | beginRx | requestFrom => exact h.txEmpty hi
  | write =>
    simp only [Machine.hostGuard, Bool.not_eq_true'] at hi ⊢
    exact h.txRoom hi
  | endTx =>
    simp only [Machine.hostGuard, h.hph] at hi ⊢
    cases hph : s.hph with
    | zero =>
      simp only [hph] at hi ⊢
      exact h.txEmpty hi
    | one =>
      simp only [hph, Bool.not_eq_true'] at hi ⊢
      exact h.stopp hi
  | endRx =>
    simp only [Machine.hostGuard, h.hph] at hi ⊢
    cases hph : s.hph with
    | zero =>
      simp only [hph, decide_eq_true_eq] at hi ⊢
      exact Nat.le_zero.1 (hi ▸ h.btr)
    | one =>
      simp only [hph, Bool.not_eq_true'] at hi ⊢
      exact h.stopp hi
  | _ => exact hi

/-- Settles O12: a move of SEQ or ENG keeps whatever a guard waits for. -/
theorem guardStaysTrueUntilHostSteps : Obligations.GuardStaysTrueUntilHostSteps := by
  unfold Obligations.GuardStaysTrueUntilHostSteps
  intro i mv s t hhost hguard hstep
  obtain ⟨-, hm⟩ := stepBy_next hstep
  exact (hm.keepsGuards hhost).hostGuard i hguard

/-! ### REQUEST_BYTES -/

theorem exec_requestBytes_of_le {n : Byte} {s : State} (h : s.btr + n.toNat ≤ btrMax s.params) :
    exec (.requestBytes n) s = .next (completed { s with btr := s.btr + n.toNat }) :=
  congrArg (atomic .host s) (if_neg (Nat.not_lt.2 h))

theorem exec_requestBytes_of_lt {n : Byte} {s : State} (h : btrMax s.params < s.btr + n.toNat) :
    exec (.requestBytes n) s = .next (faulted s .host .btrOverflow) :=
  congrArg (atomic .host s) (if_pos h)

/-- Settles O33: `btrMax` is where the two outcomes part. -/
theorem requestBytesAddsToBtrOrFaults : Obligations.RequestBytesAddsToBtrOrFaults := by
  unfold Obligations.RequestBytesAddsToBtrOrFaults
  exact fun n s => ⟨exec_requestBytes_of_le, exec_requestBytes_of_lt⟩

/-! ### The commands that only report -/

/-- A command that only reports, against the state the statements write for it. -/
theorem observe_eq (v : Word) (s : State) : observe v s = .next (reported v s) := rfl

/-- AVAILABLE reports the count of RX (R84). -/
theorem exec_available {n : Nat} {s : State} (h : s.rx.count s.params.capacity = n) :
    exec .available s = .next (reported (BitVec.ofNat 16 n) s) := by
  rw [← h]
  exact observe_eq _ s

/-- Settles O34: AVAILABLE by the three cases of the count, the other two by what they report. -/
theorem observersReportAndChangeNothingElse : Obligations.ObserversReportAndChangeNothingElse := by
  unfold Obligations.ObserversReportAndChangeNothingElse
  intro s
  exact ⟨fun hempty => exec_available (Ring.count_of_empty _ hempty), fun hfull => exec_available (Ring.count_of_full _ hfull),
    fun hne => exec_available (Ring.count_of_head_ne_tail _ hne), observe_eq _ s, observe_eq _ s⟩

/-! ### READ -/

theorem exec_read_of_empty {s : State} (h : RingEmpty s.rx) : exec .read s = .next (reported 0x0000 s) :=
  congrArg (atomic .host s) (if_pos (s.rx.isEmpty_iff.2 h))

/-- On a nonempty RX the test of READ leaves the pop, which then does not underflow. -/
theorem exec_read_of_not_empty {s : State} (h : ¬ RingEmpty s.rx) :
    exec .read s =
      .next (reported ((s.rx.slot .rx s.rx.tail).setWidth 16) { s with rx := popped s.params.capacity s.rx }) := by
  simp only [exec, execRead, if_neg (mt s.rx.isEmpty_iff.1 h), Ring.popFront_of_not_empty .rx s.params.capacity h]
  rfl

/-- Settles O35: READ on an empty and on another RX, and the byte of a written slot. -/
theorem readTakesTheFrontByteOrReportsZero : Obligations.ReadTakesTheFrontByteOrReportsZero := by
  unfold Obligations.ReadTakesTheFrontByteOrReportsZero
  exact fun s => ⟨exec_read_of_empty, exec_read_of_not_empty, fun v => Ring.slot_of_read .rx⟩

end Sys2Proof.Machine
end

section
/-!
PROOFS. The event sequencer (43_sequencer.md): the next action (R92), the outcome of every event row (R93 to R99), and END_RX
after a refused read address (R101).
-/

namespace Sys2Proof.Machine

open Sys2Proof Sys2Proof.Spec

/-! ### Handing a request to the engine -/

/-- The engine-busy test against the negation of R103's fault condition. -/
theorem State.engineBusy_false_iff_idle (s : State) : s.engineBusy = false ↔ Idle s := s.engineBusy_false

theorem State.engineBusy_iff_not_idle (s : State) : s.engineBusy = true ↔ ¬ Idle s := s.engineBusy_true

/-- SEQ's entry clears INT, so the engine takes its request when no request and no STOP is outstanding. -/
theorem State.idle_enterEvent (s : State) (c : Byte) : Idle (s.enterEvent c) ↔ s.req = .none ∧ s.stopp = false := by
  simp [Idle]

theorem Action.leavesReq_eq_reqAfter (a : Action) : a.leavesReq = reqAfter a := by
  cases a <;> rfl

theorem State.issue_of_not_idle {s : State} (g : Agent) (a : Action) (h : ¬ Idle s) :
    s.issue g a = .error .requestCollision :=
  State.issue_busy g a (s.engineBusy_iff_not_idle.2 h)

/-- A request other than STOP leaves STOPP alone. -/
theorem State.issue_of_idle {s : State} (g : Agent) {a : Action} (ha : a ≠ .stop) (h : Idle s) :
    s.issue g a = .ok { s with trace := s.trace ++ [⟨g, a, s.data⟩], req := reqAfter a } := by
  have hstopp : s.stopp = false := h.2.2
  rw [State.issue_idle g a (s.engineBusy_false_iff_idle.2 h), a.leavesReq_eq_reqAfter, decide_eq_false ha, ← hstopp]

/-- STOP goes to STOPP and leaves nothing in REQ. -/
theorem issueStop_of_idle {s : State} (h : Idle s) : issueStop s = .next (stopIssued s) := by
  have hreq : s.req = .none := h.1
  simp [issueStop, State.issue_idle .host .stop (s.engineBusy_false_iff_idle.2 h),
    atomic, stopIssued, Action.leavesReq, hreq]

/-! ### The next action -/

theorem State.nextRequest_eq_chosenRequest (s : State) : s.nextRequest = chosenRequest s.tx.isEmpty s.btr := by
  unfold State.nextRequest chosenRequest
  cases s.tx.isEmpty with
  | false => rfl
  | true =>
    obtain h | h := Nat.eq_zero_or_pos s.btr
    · simp [h]
    · simp [h, Nat.pos_iff_ne_zero.1 h]

/-- The state R92 leads to, in the terms of `nextAction`. -/
theorem acted_eq (s : State) :
    acted s = { s with
      data := s.nextData
      trace := s.trace ++ [⟨.seq, s.nextRequest, s.nextData⟩]
      req := reqAfter s.nextRequest } := by
  rw [s.nextRequest_eq_chosenRequest]
  rfl

theorem State.nextAction_of_idle {s : State} (h : Idle s) : s.nextAction = .ok (acted s) := by
  rw [s.nextAction_eq, acted_eq]
  exact State.issue_of_idle (s := { s with data := s.nextData }) .seq s.nextRequest_ne_stop h

theorem State.nextAction_of_not_idle {s : State} (h : ¬ Idle s) : s.nextAction = .error .requestCollision :=
  State.nextAction_busy (s.engineBusy_iff_not_idle.2 h)

/-- With a byte in TX, the front one is loaded and CONTINUE is issued. -/
theorem acted_of_not_empty {s : State} (h : ¬ RingEmpty s.tx) :
    acted s = { s with
      data := s.tx.slot .tx s.tx.tail
      trace := s.trace ++ [⟨.seq, .cont, s.tx.slot .tx s.tx.tail⟩]
      req := .cont } := by
  have hempty : s.tx.isEmpty = false := Bool.eq_false_iff.2 (mt s.tx.isEmpty_iff.1 h)
  simp [acted_eq, State.nextRequest, State.nextData, hempty, reqAfter]

/-- With TX empty, DATA stays and BTR alone chooses the request. -/
theorem acted_of_empty {s : State} (h : RingEmpty s.tx) :
    acted s = { s with
      trace := s.trace ++ [⟨.seq, chosenRequest true s.btr, s.data⟩]
      req := reqAfter (chosenRequest true s.btr) } := by
  have hempty : s.tx.isEmpty = true := s.tx.isEmpty_iff.2 h
  rw [acted_eq, s.nextRequest_eq_chosenRequest, State.nextData, hempty]
  rfl

theorem chosenRequest_of_one_lt {n : Nat} (h : 1 < n) : chosenRequest true n = .cont := by
  simp [chosenRequest, Nat.ne_of_gt h, Nat.ne_of_gt (Nat.zero_lt_of_lt h)]

/-- Settles O39: a busy engine, a byte in TX, and with TX empty the three ranges of BTR. -/
theorem nextActionChoosesTheRequest : Obligations.NextActionChoosesTheRequest := by
  unfold Obligations.NextActionChoosesTheRequest
  intro s
  refine ⟨State.nextAction_of_not_idle, ?load, ?nack, ?continues, ?release⟩
  case load =>
    intro hidle htx v hv
    rw [State.nextAction_of_idle hidle, acted_of_not_empty htx, Ring.slot_of_read .tx hv]
  case nack =>
    intro hidle htx hbtr
    rw [State.nextAction_of_idle hidle, acted_of_empty htx, hbtr]
    rfl
  case continues =>
    intro hidle htx hbtr
    rw [State.nextAction_of_idle hidle, acted_of_empty htx, chosenRequest_of_one_lt hbtr]
    rfl
  case release =>
    intro hidle htx hbtr
    rw [State.nextAction_of_idle hidle, acted_of_empty htx, hbtr, hidle.1]
    rfl

/-! ### Steps of SEQ that end in a request

`s` is the state before the step and `u` the state the row has reached when it issues its request. -/

theorem atomic_issue_of_idle {u : State} (s : State) {a : Action} (ha : a ≠ .stop) (h : Idle u) :
    atomic .seq s (u.issue .seq a) =
      .next { u with trace := u.trace ++ [⟨.seq, a, u.data⟩], req := reqAfter a } := by
  rw [State.issue_of_idle .seq ha h]
  rfl

theorem atomic_issue_of_not_idle {u : State} (s : State) (a : Action) (h : ¬ Idle u) :
    atomic .seq s (u.issue .seq a) = .next (faulted s .seq .requestCollision) := by
  rw [State.issue_of_not_idle .seq a h]
  rfl

theorem atomic_nextAction_of_idle {u : State} (s : State) (h : Idle u) : atomic .seq s u.nextAction = .next (acted u) := by
  rw [State.nextAction_of_idle h]
  rfl

theorem atomic_nextAction_of_not_idle {u : State} (s : State) (h : ¬ Idle u) :
    atomic .seq s u.nextAction = .next (faulted s .seq .requestCollision) := by
  rw [State.nextAction_of_not_idle h]
  rfl

/-! ### The rows that issue at once (R93, R99) -/

theorem startRow_cases (c : Byte) (s : State) :
    (s.req = .none → s.stopp = false → startRow c s = .next (acted (s.enterEvent c))) ∧
      (¬ (s.req = .none ∧ s.stopp = false) → startRow c s = .next (faulted s .seq .requestCollision)) :=
  ⟨fun hreq hstopp => atomic_nextAction_of_idle s ((s.idle_enterEvent c).2 ⟨hreq, hstopp⟩),
    fun hbusy => atomic_nextAction_of_not_idle s (mt (s.idle_enterEvent c).1 hbusy)⟩

/-- Settles O40: both rows are `startRow`. -/
theorem startRowsTakeTheNextAction : Obligations.StartRowsTakeTheNextAction := by
  unfold Obligations.StartRowsTakeTheNextAction
  exact fun c s => List.forall_mem_cons.2 ⟨startRow_cases c s, List.forall_mem_singleton.2 (startRow_cases c s)⟩

/-- Settles O46: the row enters and issues CLEAR. -/
theorem otherStatusOnlyClears : Obligations.OtherStatusOnlyClears := by
  unfold Obligations.OtherStatusOnlyClears
  intro c s
  exact ⟨fun hreq hstopp => atomic_issue_of_idle s (a := .clear) nofun ((s.idle_enterEvent c).2 ⟨hreq, hstopp⟩),
    fun hbusy => atomic_issue_of_not_idle s .clear (mt (s.idle_enterEvent c).1 hbusy)⟩

/-! ### The rows that consume the byte sent (R94 to R97) -/

theorem State.dropTx_of_empty {s : State} (h : RingEmpty s.tx) : s.dropTx = .error .rbUnderflow := by
  rw [State.dropTx, Ring.popFront_of_empty .tx _ h]

theorem State.dropTx_of_not_empty {s : State} (h : ¬ RingEmpty s.tx) :
    s.dropTx = .ok { s with tx := popped s.params.capacity s.tx } := by
  rw [State.dropTx, Ring.popFront_of_not_empty .tx _ h]

/-- The state in which such a row takes the next action: entered, the front byte off TX, and BTR at `btr`. -/
def State.afterByteSent (s : State) (c : Byte) (btr : Nat) : State :=
  { s.enterEvent c with tx := popped s.params.capacity s.tx, btr := btr }

theorem State.idle_afterByteSent (s : State) (c : Byte) (btr : Nat) :
    Idle (s.afterByteSent c btr) ↔ s.req = .none ∧ s.stopp = false :=
  s.idle_enterEvent c

/-- A step that underflows on an empty TX, and otherwise takes the next action once the byte is off, has the cases of
R94 to R97. -/
theorem sentCases_of_nextAction {c : Byte} {btr : Nat} {s : State} {r : Result}
    (hunderflow : RingEmpty s.tx → r = .next (faulted s .seq .rbUnderflow))
    (hnext : ¬ RingEmpty s.tx → r = atomic .seq s (s.afterByteSent c btr).nextAction) : SentCases c btr s r := by
  refine ⟨hunderflow, fun htx hreq hstopp => ?_, fun htx hbusy => ?_⟩
  · exact (hnext htx).trans (atomic_nextAction_of_idle s ((s.idle_afterByteSent c btr).2 ⟨hreq, hstopp⟩))
  · exact (hnext htx).trans (atomic_nextAction_of_not_idle s (mt (s.idle_afterByteSent c btr).1 hbusy))

theorem sentRow_cases (c : Byte) (s : State) : SentCases c s.btr s (sentRow c s) := by
  refine sentCases_of_nextAction (fun htx => ?_) (fun htx => ?_)
  · rw [sentRow, State.dropTx_of_empty (s := s.enterEvent c) htx]
    rfl
  · rw [sentRow, State.dropTx_of_not_empty (s := s.enterEvent c) htx]
    rfl

theorem readRefusedRow_cases (c : Byte) (s : State) : SentCases c 0 s (readRefusedRow c s) := by
  refine sentCases_of_nextAction (fun htx => ?_) (fun htx => ?_)
  · rw [readRefusedRow, State.dropTx_of_empty (s := s.enterEvent c) htx]
    rfl
  · rw [readRefusedRow, State.dropTx_of_not_empty (s := s.enterEvent c) htx]
    rfl

/-- Settles O41: both rows are `sentRow`. -/
theorem addressAckConsumesTheSlaByte : Obligations.AddressAckConsumesTheSlaByte := by
  unfold Obligations.AddressAckConsumesTheSlaByte
  exact fun c s => List.forall_mem_cons.2 ⟨sentRow_cases c s, List.forall_mem_singleton.2 (sentRow_cases c s)⟩

/-- Settles O42: the row is the one of an address ACK. -/
theorem writeAddressNackDoesNotAbort : Obligations.WriteAddressNackDoesNotAbort := by
  unfold Obligations.WriteAddressNackDoesNotAbort
  exact sentRow_cases

/-- Settles O43: the row of a refused read address. -/
theorem readAddressNackZeroesBtr : Obligations.ReadAddressNackZeroesBtr := by
  unfold Obligations.ReadAddressNackZeroesBtr
  exact readRefusedRow_cases

/-- Settles O44: both rows are `sentRow`. -/
theorem dataAckAndNackConsumeTheByte : Obligations.DataAckAndNackConsumeTheByte := by
  unfold Obligations.DataAckAndNackConsumeTheByte
  exact fun c s => List.forall_mem_cons.2 ⟨sentRow_cases c s, List.forall_mem_singleton.2 (sentRow_cases c s)⟩

/-! ### The rows of a received byte (R98) -/

theorem acknowledgement_eq_nextAcknowledge (n : Nat) : acknowledgement n = nextAcknowledge n := by
  match n with
  | 0 | 1 => rfl
  | n + 2 => simp [acknowledgement, nextAcknowledge]

theorem State.storeReceived_of_full {s : State} (hbtr : s.btr ≠ 0) (hrx : RingFull s.rx) :
    s.storeReceived = .error .rbOverflow := by
  rw [State.storeReceived, if_pos (Nat.pos_of_ne_zero hbtr), State.pushRx, Ring.pushBack_of_full _ _ hrx]

/-- The state in which the acknowledgement is chosen: an expected byte is in RX and counted off. -/
def State.afterReceived (s : State) : State :=
  { s with rx := if s.btr = 0 then s.rx else pushed s.params.capacity s.rx s.data, btr := s.btr - 1 }

theorem State.storeReceived_of_room {s : State} (h : s.btr = 0 ∨ ¬ RingFull s.rx) :
    s.storeReceived = .ok s.afterReceived := by
  by_cases hbtr : s.btr = 0
  · have hstays : s.btr - 1 = s.btr := by omega
    rw [State.storeReceived, if_neg (Nat.not_lt.2 hbtr.le), State.afterReceived, if_pos hbtr, hstays]
  · rw [State.storeReceived, if_pos (Nat.pos_of_ne_zero hbtr), State.pushRx,
      Ring.pushBack_of_not_full _ _ (h.resolve_left hbtr), State.afterReceived, if_neg hbtr]

theorem receivedRow_of_room (c : Byte) {s : State} (h : s.btr = 0 ∨ ¬ RingFull s.rx) :
    receivedRow c s =
      atomic .seq s ((s.enterEvent c).afterReceived.issue .seq (nextAcknowledge (s.btr - 1))) := by
  rw [receivedRow, State.storeReceived_of_room (s := s.enterEvent c) h, ← acknowledgement_eq_nextAcknowledge]
  exact congrArg (atomic .seq s) (State.acknowledge_eq _)

theorem receivedRow_cases (c : Byte) (s : State) : ReceivedCases c s (receivedRow c s) := by
  refine ⟨fun hbtr hrx => ?_, fun hroom hreq hstopp => ?_, fun hroom hbusy => ?_⟩
  · rw [receivedRow, State.storeReceived_of_full (s := s.enterEvent c) hbtr hrx]
    rfl
  · have hack : nextAcknowledge (s.btr - 1) ≠ .stop := by
      rw [← acknowledgement_eq_nextAcknowledge]
      exact acknowledgement_ne_stop _
    exact (receivedRow_of_room c hroom).trans
      (atomic_issue_of_idle s hack ((s.idle_enterEvent c).2 ⟨hreq, hstopp⟩))
  · exact (receivedRow_of_room c hroom).trans
      (atomic_issue_of_not_idle s _ (mt (s.idle_enterEvent c).1 hbusy))

/-- Settles O45: both rows are `receivedRow`. -/
theorem receivedByteIsStoredAndAcknowledged : Obligations.ReceivedByteIsStoredAndAcknowledged := by
  unfold Obligations.ReceivedByteIsStoredAndAcknowledged
  exact fun c s => List.forall_mem_cons.2 ⟨receivedRow_cases c s, List.forall_mem_singleton.2 (receivedRow_cases c s)⟩

/-! ### END_RX after a refused read address (R101) -/

/-- With nothing left to receive and the engine idle, phase 0 of END_RX does not wait. -/
theorem exec_endRx_of_idle {s : State} (hhph : s.hph = .zero) (hbtr : s.btr = 0) (hidle : Idle s) :
    exec .endRx s = .next (stopIssued s) := by
  rw [← issueStop_of_idle hidle]
  simp [exec, execEndRx, hhph, hbtr, waitUntil]

/-- A refused read address that does not fault: the byte is off TX and BTR is 0. -/
theorem exec_evSlarNack_of_no_fault {c : Byte} {s t : State} (hreq : s.req = .none) (hstopp : s.stopp = false)
    (h : exec (.evSlarNack c) s = .next t) (hfault : t.fault = none) : t = sent c 0 s := by
  obtain ⟨hunderflow, hsent, -⟩ := readRefusedRow_cases c s
  by_cases htx : RingEmpty s.tx
  · obtain rfl := Host.Outcome.next.inj (h.symm.trans (hunderflow htx))
    exact nomatch hfault
  · exact Host.Outcome.next.inj (h.symm.trans (hsent htx hreq hstopp))

/-- Once TX is empty, a row that consumes the byte sent and leaves BTR at 0 has issued RELEASE. -/
theorem sent_zero_of_empty {c : Byte} {s : State} (h : RingEmpty (sent c 0 s).tx) :
    sent c 0 s = { s.afterByteSent c 0 with trace := s.trace ++ [⟨.seq, .release, s.data⟩], req := .none } :=
  acted_of_empty (s := s.afterByteSent c 0) h

/-- Settles O49: RELEASE leaves the engine idle and BTR is 0, which is all that END_RX waits for. -/
theorem readAddressNackLetsEndRxProceed : Obligations.ReadAddressNackLetsEndRxProceed := by
  unfold Obligations.ReadAddressNackLetsEndRxProceed
  intro c s t _ hreq hstopp hstep hfault
  obtain rfl := exec_evSlarNack_of_no_fault hreq hstopp hstep hfault
  refine ⟨rfl, fun hempty => ?_⟩
  have hsent := sent_zero_of_empty hempty
  have hidle : Idle (sent c 0 s) := by
    rw [hsent]
    exact ⟨rfl, rfl, hstopp⟩
  exact ⟨by rw [hsent], fun hhph => exec_endRx_of_idle hhph rfl hidle⟩

end Sys2Proof.Machine
end

section
/-!
PROOFS. The bus engine (44_bus_engine.md): when ENG has a step and what its steps write (R104 to R106), and the request
handed to it (R103).
-/

namespace Sys2Proof.Machine

open Sys2Proof Sys2Proof.Spec

/-! ### When ENG has a step -/

theorem State.answerEnabled_iff (s : State) : s.answerEnabled = true ↔ s.req ≠ .none ∧ s.int = false := by
  simp [State.answerEnabled]

theorem State.dropEnabled_iff (s : State) : s.dropEnabled = true ↔ s.req = .clear := decide_eq_true_iff

/-- FAULT apart, the code and the byte are ENG's free choice (R104). -/
theorem State.enabled_engAnswer_iff (c d : Byte) (s : State) :
    s.enabled (.engAnswer c d) = true ↔ s.fault = none ∧ s.req ≠ .none ∧ s.int = false := by
  rw [← s.answerEnabled_iff, ← Option.isNone_iff_eq_none]
  exact Bool.and_eq_true_iff

theorem State.enabled_engDrop_iff (s : State) : s.enabled .engDrop = true ↔ s.fault = none ∧ s.req = .clear := by
  rw [← s.dropEnabled_iff, ← Option.isNone_iff_eq_none]
  exact Bool.and_eq_true_iff

theorem State.enabled_engStop_iff (s : State) : s.enabled .engStop = true ↔ s.fault = none ∧ s.stopp = true := by
  rw [← Option.isNone_iff_eq_none]
  exact Bool.and_eq_true_iff

/-! ### What ENG's steps write -/

/-- The two classes whose events deliver a byte. -/
theorem isReceived_iff (cls : EventClass) : isReceived cls = true ↔ cls = .drxAck ∨ cls = .drxNack := by
  cases cls <;> decide

theorem State.engineAnswer_eq (c d : Byte) (s : State) :
    s.engineAnswer c d = { s with
      hwstat := c
      data := if classify s.params.statusMap c = .drxAck ∨ classify s.params.statusMap c = .drxNack then d else s.data
      req := .none
      int := true } := by
  simp only [State.engineAnswer, isReceived_iff]

theorem stepBy_engDrop {s : State} (hf : s.fault = none) (hreq : s.req = .clear) :
    stepBy .engDrop s = .next s.engineDrop := by
  simp [stepBy, hf, engDropMove, s.dropEnabled_iff.2 hreq]

theorem stepBy_engStop {s : State} (hf : s.fault = none) (hstopp : s.stopp = true) :
    stepBy .engStop s = .next s.engineStop := by
  simp [stepBy, hf, engStopMove, hstopp]

/-- Settles O14: the guard of ENG's answer, and the answer with its data classes written out. -/
theorem engineAnswerRaisesOneEvent : Obligations.EngineAnswerRaisesOneEvent := by
  unfold Obligations.EngineAnswerRaisesOneEvent
  intro c d s
  refine ⟨s.enabled_engAnswer_iff c d, fun hf hreq hint => ?_⟩
  rw [stepBy_engAnswer c d hf (s.answerEnabled_iff.2 ⟨hreq, hint⟩), s.engineAnswer_eq]

/-- Settles O15: a CLEAR is a request, so ENG may answer it too; the drop and the end of a STOP clear one flag each. The
drop's guard reads REQ and FAULT alone, so its clause needs nothing of the invariant. -/
theorem engineDropsClearAndCompletesStop : Obligations.EngineDropsClearAndCompletesStop := by
  unfold Obligations.EngineDropsClearAndCompletesStop
  refine ⟨fun s hf hclear hint => ⟨?drop, fun c d => ?answer, stepBy_engDrop hf hclear⟩,
    fun s _ => s.enabled_engDrop_iff, fun s => ⟨s.enabled_engStop_iff, stepBy_engStop⟩⟩
  case drop => exact s.enabled_engDrop_iff.2 ⟨hf, hclear⟩
  case answer =>
    have hreq : s.req ≠ .none := by simp [hclear]
    exact (s.enabled_engAnswer_iff c d).2 ⟨hf, hreq, hint⟩

/-! ### Handing a request to the engine -/

/-- R103's fault condition, as written, is a busy engine. -/
theorem State.not_idle_iff (s : State) : ¬ Idle s ↔ s.req ≠ .none ∨ s.int = true ∨ s.stopp = true := by
  simp only [Idle, not_and_or, Bool.not_eq_false]

/-- STOP goes to STOPP and leaves nothing in REQ, which was empty before. -/
theorem State.issue_stop_of_idle {s : State} (g : Agent) (h : Idle s) :
    s.issue g .stop = .ok { s with trace := s.trace ++ [⟨g, .stop, s.data⟩], stopp := true } := by
  have hreq : s.req = .none := h.1
  rw [State.issue_idle g .stop (s.engineBusy_false_iff_idle.2 h), decide_eq_true rfl, Action.leavesReq, ← hreq]

/-- RELEASE is recorded and starts nothing: REQ stays empty. -/
theorem State.issue_release_of_idle {s : State} (g : Agent) (h : Idle s) :
    s.issue g .release = .ok { s with trace := s.trace ++ [⟨g, .release, s.data⟩] } := by
  have hreq : s.req = .none := h.1
  rw [State.issue_of_idle g (a := .release) nofun h, reqAfter, ← hreq]

/-- Settles O17: a busy engine; the requests that go to REQ; STOP; RELEASE. -/
theorem issueRecordsAndHandsOver : Obligations.IssueRecordsAndHandsOver := by
  unfold Obligations.IssueRecordsAndHandsOver
  intro g a s
  refine ⟨fun hbusy => State.issue_of_not_idle g a (s.not_idle_iff.2 hbusy), fun hidle ha => ?_,
    State.issue_stop_of_idle g, State.issue_release_of_idle g⟩
  have hstop : a ≠ .stop := by
    rintro rfl
    simp at ha
  exact State.issue_of_idle g hstop hidle

end Sys2Proof.Machine
end

section
/-!
PROOFS. Faults (60_exceptions.md R113): a step either leaves FAULT alone or is discarded whole but for FAULT, and a faulted
machine has stopped.
-/

namespace Sys2Proof.Machine

open Sys2Proof

/-! ### Raising a fault -/

theorem HostStep.fault_eq_or_raise {s t : State} {i : Instr} (h : HostStep s i t) :
    t.fault = s.fault ∨ ∃ k, t = s.raise .host k := by
  cases h with
  | collides | overflows | illegal => exact .inr ⟨_, rfl⟩
  | waits | begins | queues | kicks | stops | endsTx | endsRx | requests | reports | takes => exact .inl rfl

theorem SeqStep.fault_eq_or_raise {s t : State} {cls : EventClass} {c : Byte} (h : SeqStep s cls c t) :
    t.fault = s.fault ∨ ∃ k, t = s.raise .seq k := by
  cases h with
  | collides | underflows | overflows => exact .inr ⟨_, rfl⟩
  | starts | sent | stores | discards | clears => exact .inl rfl

/-- A move that changes FAULT is HOST's or SEQ's, and raises a fault in that agent's name. -/
theorem MoveStep.fault_eq_or_raise {mv : Move} {s t : State} (h : MoveStep s mv t) :
    t.fault = s.fault ∨ ∃ g k, ((mv = .host ∧ g = .host) ∨ (mv = .seq ∧ g = .seq)) ∧ t = s.raise g k := by
  cases h with
  | host _ _ _ _ _ hs => exact hs.fault_eq_or_raise.imp id fun ⟨k, ht⟩ => ⟨.host, k, .inl ⟨rfl, rfl⟩, ht⟩
  | seq _ _ _ _ hs => exact hs.fault_eq_or_raise.imp id fun ⟨k, ht⟩ => ⟨.seq, k, .inr ⟨rfl, rfl⟩, ht⟩
  | none | answer | drop | stop => exact .inl rfl

/-! ### A faulted machine -/

theorem State.enabled_of_fault {s : State} {r : FaultRecord} (h : s.fault = some r) (mv : Move) :
    s.enabled mv = false := by
  simp [State.enabled, h]

theorem State.final_of_fault {s : State} {r : FaultRecord} (h : s.fault = some r) : s.final = false := by
  simp [State.final, h]

/-- Settles O54: FAULT was clear and is not now, so the move is a raise, whose record carries the agent and HPC. -/
theorem faultIsPreciseAndSticky : Obligations.FaultIsPreciseAndSticky := by
  unfold Obligations.FaultIsPreciseAndSticky
  intro mv s t r hclear hstep hfault
  obtain ⟨-, hm⟩ := stepBy_next hstep
  obtain hsame | ⟨g, k, hagent, ht⟩ := hm.fault_eq_or_raise
  · have hnone : t.fault = none := hsame.trans hclear
    exact nomatch hnone.symm.trans hfault
  · obtain rfl : ⟨k, g, s.hpc⟩ = r := by
      rw [ht, State.raise_fault] at hfault
      exact Option.some.inj hfault
    exact ⟨ht, rfl, hagent, State.enabled_of_fault hfault, State.final_of_fault hfault⟩

end Sys2Proof.Machine
end

section
/-!
PROOFS. Reset (70_reset_and_hazards.md R125) and the end of a run (R128): what final and stuck say, and that a final state has
no step.
-/

namespace Sys2Proof.Machine

open Sys2Proof

/-! ### Reset -/

theorem Ring.empty_head_tail_last : Ring.empty.head = 0 ∧ Ring.empty.tail = 0 ∧ Ring.empty.last = .read := ⟨rfl, rfl, rfl⟩

/-- Settles O18: both ring buffers are the empty one, and every other element is read off the reset state. -/
theorem resetLeavesTheStatedValues : Obligations.ResetLeavesTheStatedValues := by
  unfold Obligations.ResetLeavesTheStatedValues
  obtain ⟨hhead, htail, hlast⟩ := Ring.empty_head_tail_last
  exact ⟨hhead, htail, hlast, hhead, htail, hlast, rfl, rfl, rfl, rfl, rfl, rfl, rfl, rfl, rfl, rfl⟩

/-! ### Final states -/

theorem State.final_iff (s : State) :
    s.final = true ↔ s.fault = none ∧ s.hpc = s.params.program.length ∧ s.int = false ∧ s.req = .none ∧ s.stopp = false := by
  simp [State.final, and_assoc]

/-- HOST past its last command has nothing to fetch (R76). -/
theorem State.hostEnabled_of_finished {s : State} (h : s.hpc = s.params.program.length) : s.hostEnabled = false := by
  have hfetch : s.fetchCommand = none := List.getElem?_eq_none h.ge
  simp [State.hostEnabled, hfetch]

/-- Each agent lacks what its step needs: HOST a command, SEQ an event, ENG a request or a STOP to complete. -/
theorem State.enabled_of_final {s : State} (h : s.final = true) (mv : Move) : s.enabled mv = false := by
  obtain ⟨-, hhpc, hint, hreq, hstopp⟩ := s.final_iff.1 h
  apply Bool.eq_false_iff.2
  intro hmv
  cases mv with
  | host => simp [State.enabled, State.hostEnabled_of_finished hhpc] at hmv
  | seq => simp [State.enabled, hint] at hmv
  | engAnswer c d => exact ((s.enabled_engAnswer_iff c d).1 hmv).2.1 hreq
  | engDrop => exact nomatch hreq.symm.trans (s.enabled_engDrop_iff.1 hmv).2
  | engStop => exact nomatch hstopp.symm.trans (s.enabled_engStop_iff.1 hmv).2

/-! ### Stuck states -/

/-- `noStep` tries ENG's answer with one code and byte, which decide nothing about whether ENG may answer (R104). -/
theorem State.noStep_iff (s : State) : s.noStep = true ↔ ∀ mv, s.enabled mv = false := by
  simp only [State.noStep, Bool.not_eq_true', Bool.or_eq_false_iff]
  constructor
  · rintro ⟨⟨⟨⟨hhost, hseq⟩, hanswer⟩, hdrop⟩, hstop⟩ mv
    cases mv with
    | host => exact hhost
    | seq => exact hseq
    | engAnswer _ _ => exact hanswer
    | engDrop => exact hdrop
    | engStop => exact hstop
  · exact fun h => ⟨⟨⟨⟨h _, h _⟩, h _⟩, h _⟩, h _⟩

theorem State.stuck_iff (s : State) : s.stuck = true ↔ (∀ mv, s.enabled mv = false) ∧ s.final = false := by
  rw [← s.noStep_iff, ← Bool.not_eq_true']
  exact Bool.and_eq_true_iff

/-- Settles O21: final and stuck by what they say, and a final state by the want of every agent. -/
theorem finalAndStuckStatesHaveNoStep : Obligations.FinalAndStuckStatesHaveNoStep := by
  unfold Obligations.FinalAndStuckStatesHaveNoStep
  exact fun s => ⟨s.final_iff, State.enabled_of_final, s.stuck_iff⟩

end Sys2Proof.Machine
end

section
namespace Sys2Proof

open Sys2Proof.Spec

/-! ### Words from fields and fields from words (R52) -/

/-- The bits of a command word: `ARG` below bit 8, `OP` from bit 12, and 0 between. -/
theorem getLsbD_commandWord (op : BitVec 4) (arg : Byte) {i : Nat} (hi : i < 16) :
    (commandWord op arg).getLsbD i = (!decide (i < 12) && op.getLsbD (i - 12) || arg.getLsbD i) := by
  simp [commandWord, hi]

@[simp] theorem cwArg_commandWord (op : BitVec 4) (arg : Byte) : cwArg (commandWord op arg) = arg := by
  ext i hi
  have h12 : i < 12 := by omega
  simp [cwArg, getLsbD_commandWord op arg (i := i) (by omega), h12, hi]

@[simp] theorem cwOp_commandWord (op : BitVec 4) (arg : Byte) : cwOp (commandWord op arg) = op := by
  ext i hi
  simp [cwOp, getLsbD_commandWord op arg (i := 12 + i) (by omega), BitVec.getLsbD_of_ge arg (12 + i) (by omega),
    BitVec.getLsbD_eq_getElem hi]

@[simp] theorem cwRsv_commandWord (op : BitVec 4) (arg : Byte) : cwRsv (commandWord op arg) = 0 := by
  ext i hi
  have h12 : 8 + i < 12 := by omega
  simp [cwRsv, getLsbD_commandWord op arg (i := 8 + i) (by omega), h12]

theorem cwBit7_commandWord (op : BitVec 4) (a : Addr) : cwBit7 (commandWord op (a.setWidth 8)) = false := by
  rw [cwBit7, getLsbD_commandWord op _ (by omega)]
  simp

theorem cwAddr_commandWord (op : BitVec 4) (a : Addr) : cwAddr (commandWord op (a.setWidth 8)) = a := by
  ext i hi
  have h12 : i < 12 := by omega
  have h8 : i < 8 := by omega
  simp [cwAddr, getLsbD_commandWord op _ (i := i) (by omega), h12, h8, hi]

/-- With `RSV` at 0, `OP` and `ARG` make up the whole word. -/
theorem commandWord_cwOp_cwArg {w : Word} (hrsv : cwRsv w = 0) : commandWord (cwOp w) (cwArg w) = w := by
  apply BitVec.eq_of_getLsbD_eq
  intro i hi
  rw [getLsbD_commandWord _ _ hi]
  by_cases h8 : i < 8
  · have h12 : i < 12 := by omega
    simp [cwArg, h8, h12]
  · by_cases h12 : i < 12
    · have hi8 : i - 8 < 4 := by omega
      have hback : 8 + (i - 8) = i := by omega
      have hbit : w.getLsbD i = false := by
        simpa [cwRsv, hi8, hback] using congrArg (fun v => v.getLsbD (i - 8)) hrsv
      simp [cwArg, h8, h12, hbit]
    · have hi12 : i - 12 < 4 := by omega
      have hback : 12 + (i - 12) = i := by omega
      simp [cwOp, cwArg, h8, h12, hi12, hback]

/-- With `CW[7]` at 0, the address is the whole of `ARG`. -/
theorem setWidth_cwAddr {w : Word} (h : cwBit7 w = false) : (cwAddr w).setWidth 8 = cwArg w := by
  apply BitVec.eq_of_getLsbD_eq
  intro i hi
  by_cases h7 : i = 7
  · subst h7
    simpa [cwAddr, cwArg, cwBit7] using h.symm
  · have hi7 : i < 7 := by omega
    simp [cwAddr, cwArg, hi, hi7]

/-! ### Decode after encode -/

theorem decodeCommand_beginTx (a : Addr) : decodeCommand (commandWord 0x1 (a.setWidth 8)) = .beginTx a := by
  simp [decodeCommand, decodeAddressed, cwBit7_commandWord, cwAddr_commandWord]

theorem decodeCommand_beginRx (a : Addr) : decodeCommand (commandWord 0x4 (a.setWidth 8)) = .beginRx a := by
  simp [decodeCommand, decodeAddressed, cwBit7_commandWord, cwAddr_commandWord]

theorem decodeCommand_write (d : Byte) : decodeCommand (commandWord 0x2 d) = .write d := by
  simp [decodeCommand]

theorem decodeCommand_requestBytes (n : Byte) : decodeCommand (commandWord 0x5 n) = .requestBytes n := by
  simp [decodeCommand]

theorem decodeCommand_endTx : decodeCommand (commandWord 0x3 0) = .endTx := by decide

theorem decodeCommand_available : decodeCommand (commandWord 0x6 0) = .available := by decide

theorem decodeCommand_read : decodeCommand (commandWord 0x7 0) = .read := by decide

theorem decodeCommand_endRx : decodeCommand (commandWord 0x8 0) = .endRx := by decide

theorem decodeCommand_getStatus : decodeCommand (commandWord 0x9 0) = .getStatus := by decide

theorem decodeCommand_getBtr : decodeCommand (commandWord 0xA 0) = .getBtr := by decide

theorem decodeEncoded_word {m : StatusMap} {w : Word} {i : Instr} (h : decodeCommand w = i) :
    decodeEncoded m (.words [w]) = [i] :=
  congrArg (fun j => [j]) h

/-- The row of a code is the one its class names. -/
theorem decodeEvent_of_classify {m : StatusMap} {s : Byte} {cls : EventClass} (h : classify m s = cls) :
    decodeEvent m s = eventRow cls s := by
  rw [decodeEvent_eq, h]

/-- Settles O2: the words of the ten commands, those of REQUEST_FROM among them; an illegal word by R60's conditions; a
status code by its class. -/
theorem decodeOfEncodeIsTheInstruction : Obligations.DecodeOfEncodeIsTheInstruction := by
  unfold Obligations.DecodeOfEncodeIsTheInstruction
  intro m i hi
  cases i with
  | beginTx a => exact decodeEncoded_word (decodeCommand_beginTx a)
  | write d => exact decodeEncoded_word (decodeCommand_write d)
  | endTx => exact decodeEncoded_word decodeCommand_endTx
  | beginRx a => exact decodeEncoded_word (decodeCommand_beginRx a)
  | requestBytes n => exact decodeEncoded_word (decodeCommand_requestBytes n)
  | available => exact decodeEncoded_word decodeCommand_available
  | read => exact decodeEncoded_word decodeCommand_read
  | endRx => exact decodeEncoded_word decodeCommand_endRx
  | getStatus => exact decodeEncoded_word decodeCommand_getStatus
  | getBtr => exact decodeEncoded_word decodeCommand_getBtr
  | requestFrom a n =>
    simp only [encode, decodeEncoded, expand, List.map_cons, List.map_nil, decodeCommand_beginRx,
      decodeCommand_requestBytes, decodeCommand_endRx, decodeCommand_available]
  | illegal w => exact decodeEncoded_word ((decodeCommand_eq_illegal_iff w).2 hi)
  | _ s => exact congrArg (fun j => [j]) (decodeEvent_of_classify (of_decide_eq_true hi))

/-- An instruction that is one word, or one status code, is what the decoder reads there. -/
theorem decodeCommand_of_encode {m : StatusMap} {i : Instr} {w : Word} (hi : i.wellFormed m = true)
    (hw : encode i = .words [w]) : decodeCommand w = i := by
  have h := decodeOfEncodeIsTheInstruction m i hi
  rw [hw] at h
  cases i with
  | requestFrom a n => exact nomatch (Encoded.words.inj hw)
  | _ => exact (List.cons.inj h).1

theorem decodeEvent_of_encode {m : StatusMap} {i : Instr} {s : Byte} (hi : i.wellFormed m = true)
    (hs : encode i = .status s) : decodeEvent m s = i := by
  have h := decodeOfEncodeIsTheInstruction m i hi
  rw [hs] at h
  cases i with
  | requestFrom a n => exact nomatch hs
  | _ => exact (List.cons.inj h).1

/-! ### Encode after decode -/

/-- The opcode as the number the decoder reads. -/
theorem commandWord_ofNat_cwArg {w : Word} {op : Nat} (hrsv : cwRsv w = 0) (hop : (cwOp w).toNat = op) :
    commandWord (BitVec.ofNat 4 op) (cwArg w) = w := by
  rw [← hop, BitVec.ofNat_toNat, BitVec.setWidth_eq, commandWord_cwOp_cwArg hrsv]

theorem encode_decodeAddressed {w : Word} {op : Nat} {i : Addr → Instr} (hrsv : cwRsv w = 0) (hop : (cwOp w).toNat = op)
    (hi : ∀ a, encode (i a) = .words [commandWord (BitVec.ofNat 4 op) (a.setWidth 8)]) :
    encode (decodeAddressed w i) = .words [w] := by
  unfold decodeAddressed
  split
  case isTrue => rfl
  case isFalse hbit =>
    rw [hi, setWidth_cwAddr (Bool.eq_false_iff.2 hbit), commandWord_ofNat_cwArg hrsv hop]

theorem encode_decodeBare {w : Word} {op : Nat} {i : Instr} (hrsv : cwRsv w = 0) (hop : (cwOp w).toNat = op)
    (hi : encode i = .words [commandWord (BitVec.ofNat 4 op) 0]) : encode (decodeBare w i) = .words [w] := by
  unfold decodeBare
  split
  case isTrue harg => rw [hi, ← harg, commandWord_ofNat_cwArg hrsv hop]
  case isFalse => rfl

/-- No bit of a word is lost: what it is read as is encoded back to it. -/
theorem encode_decodeCommand (w : Word) : encode (decodeCommand w) = .words [w] := by
  unfold decodeCommand
  split
  case isTrue => rfl
  case isFalse hrsv =>
    replace hrsv : cwRsv w = 0 := not_not.1 hrsv
    split
    case h_1 hop | h_4 hop => exact encode_decodeAddressed hrsv hop fun _ => rfl
    case h_2 hop | h_5 hop => exact congrArg (fun v => Encoded.words [v]) (commandWord_ofNat_cwArg hrsv hop)
    case h_11 => rfl
    all_goals
      rename_i hop
      exact encode_decodeBare hrsv hop rfl

/-- A word is read as a command or as itself, illegal, and then by R60's conditions. -/
theorem wellFormed_decodeCommand (m : StatusMap) (w : Word) : (decodeCommand w).wellFormed m = true := by
  have hcommand := decodeCommand_command w
  have hencode := encode_decodeCommand w
  cases h : decodeCommand w with
  | illegal v =>
    rw [h] at hencode
    obtain rfl : v = w := (List.cons.inj (Encoded.words.inj hencode)).1
    exact (decodeCommand_eq_illegal_iff v).1 h
  | beginTx | write | endTx | beginRx | requestBytes | available | read | endRx | getStatus | getBtr => rfl
  | _ =>
    rw [h] at hcommand
    exact nomatch hcommand

theorem encode_decodeEvent (m : StatusMap) (s : Byte) : encode (decodeEvent m s) = .status s := by
  rw [decodeEvent_eq]
  cases classify m s <;> rfl

theorem wellFormed_decodeEvent (m : StatusMap) (s : Byte) : (decodeEvent m s).wellFormed m = true := by
  cases h : classify m s <;> exact (congrArg (Instr.wellFormed m) (decodeEvent_of_classify h)).trans (decide_eq_true h)

/-- Settles O3: nothing is lost in decoding a word or a code, and what is read is well-formed. -/
theorem everyWordIsOneCommandOrIllegal : Obligations.EveryWordIsOneCommandOrIllegal := by
  unfold Obligations.EveryWordIsOneCommandOrIllegal
  exact ⟨fun w => ⟨encode_decodeCommand w, decodeCommand_eq_illegal_iff w, fun m => wellFormed_decodeCommand m w⟩,
    fun m s => ⟨encode_decodeEvent m s, wellFormed_decodeEvent m s⟩⟩

/-! ### The words of R61 as that rule writes them -/

/-- The address of a word of R61 has 7 bits, in the field of 8. -/
theorem commandWord_setWidth (op : BitVec 4) (a : Addr) :
    commandWord op (a.setWidth 8) = op.setWidth 16 <<< 12 ||| a.setWidth 16 := by
  rw [commandWord, BitVec.setWidth_setWidth (by decide)]

/-- Settles O4: the opcode of each command in its four bits, by the encoder's own form of a word. -/
theorem encodeGivesTheWordsOfTheRule : Obligations.EncodeGivesTheWordsOfTheRule := by
  unfold Obligations.EncodeGivesTheWordsOfTheRule
  exact ⟨fun a => congrArg (fun w => Encoded.words [w]) (commandWord_setWidth 0x1 a), fun _ => rfl, rfl,
    fun a => congrArg (fun w => Encoded.words [w]) (commandWord_setWidth 0x4 a), fun _ => rfl, rfl, rfl, rfl, rfl, rfl⟩

/-- Settles O1: each of the words and codes is evaluated. -/
theorem wordsOfTheTableDecodeToTheirRows : Obligations.WordsOfTheTableDecodeToTheirRows := by
  unfold Obligations.WordsOfTheTableDecodeToTheirRows
  decide

/-! ### Status maps (R65, R66) -/

/-- Under the default map a code is told by its upper five bits. -/
theorem classify_defaultStatusMap (s : Byte) : classify defaultStatusMap s = tableClass s := by
  rw [tableClass]
  simp only [defaultStatusMap, classify]
  generalize s &&& 0xF8 = code
  simp only [← BitVec.toNat_inj]
  symm
  split <;> simp_all

/-- The row that gives the code `s` alone the class `cls`. -/
def StatusRow.single (s : Byte) (cls : EventClass) : StatusRow := ⟨0xFF, s, cls⟩

theorem classify_single_cons (c : Byte) (cls : EventClass) (m : StatusMap) (s : Byte) :
    classify (.single c cls :: m) s = if s = c then cls else classify m s := by
  have hmask : s &&& 0xFF = s := BitVec.and_allOnes
  rw [classify, StatusRow.single, hmask]

/-- Rows for single codes give each code they list its class. -/
theorem classify_map_single (f : Byte → EventClass) {cs : List Byte} {s : Byte} (h : s ∈ cs) :
    classify (cs.map fun c => .single c (f c)) s = f s := by
  induction cs with
  | nil => exact nomatch h
  | cons c cs ih =>
    rw [List.map_cons, classify_single_cons]
    split
    case isTrue heq => rw [heq]
    case isFalse hne => exact ih ((List.mem_cons.1 h).resolve_left hne)

/-- Settles O6: the default map by its rows, and any map as one row for each of the 256 codes. -/
theorem statusMapIsAnyTotalMap : Obligations.StatusMapIsAnyTotalMap := by
  unfold Obligations.StatusMapIsAnyTotalMap
  refine ⟨classify_defaultStatusMap, fun f => ?_⟩
  have hall : ∀ s : Byte, s ∈ (List.finRange 256).map BitVec.ofFin :=
    fun s => List.mem_map.2 ⟨s.toFin, List.mem_finRange _, rfl⟩
  exact ⟨_, fun s => classify_map_single f (hall s)⟩

end Sys2Proof
end

section
/-!
PROOFS. Storage and the ring buffer as a queue (20_memory.md R37, 41_ring_buffer.md R73): what a slot write leaves, what a
push and a pop do to the bytes held, and that both keep the ring's invariant.
-/

namespace Sys2Proof.Machine

open Sys2Proof Sys2Proof.Spec

/-! ### Storage -/

theorem Memory.read_write_same (m : Memory) (i : Nat) (b : Byte) : (m.write i b).read i = some b := by
  induction m with
  | nil => simp [Memory.write, Memory.read]
  | cons x m ih =>
    unfold Memory.write
    split_ifs with hlt heq
    · simp [Memory.read]
    · simp [Memory.read]
    · rw [Memory.read, if_neg (Ne.symm heq), ih]

theorem Memory.read_write_other (m : Memory) {i j : Nat} (b : Byte) (h : j ≠ i) : (m.write i b).read j = m.read j := by
  induction m with
  | nil => simp [Memory.write, Memory.read, h.symm]
  | cons x m ih =>
    unfold Memory.write
    split_ifs with hlt heq
    · rw [Memory.read, if_neg h.symm]
    · rw [Memory.read, Memory.read, if_neg h.symm, if_neg (heq ▸ h.symm)]
    · rw [Memory.read, Memory.read, ih]

/-- Settles O22: the slot written, and any other. -/
theorem slotWriteIsReadBackAlone : Obligations.SlotWriteIsReadBackAlone := by
  unfold Obligations.SlotWriteIsReadBackAlone
  exact fun m i b => ⟨m.read_write_same i b, fun j => m.read_write_other b⟩

/-! ### Where the queued bytes lie -/

/-- An index advanced by at most `c` places wraps at most once. -/
theorem addIndex_eq_ite {c i k : Nat} (hi : i < c) (hk : k ≤ c) :
    (i + k) % c = if i + k < c then i + k else i + k - c := by
  split
  case isTrue h => exact Nat.mod_eq_of_lt h
  case isFalse h => rw [Nat.mod_eq_sub_mod (by omega), Nat.mod_eq_of_lt (by omega)]

theorem Ring.InRange.count_le {c : Nat} {r : Ring} (h : r.InRange c) : r.count c ≤ c := by
  by_cases hfull : RingFull r
  · exact (Ring.count_of_full c hfull).le
  · rw [h.count_of_not_full hfull]
    obtain ⟨hhead, htail⟩ := h
    split_ifs <;> omega

/-- `head` stands just past the last queued byte. -/
theorem Ring.InRange.head_eq {c : Nat} {r : Ring} (h : r.InRange c) : r.head = (r.tail + r.count c) % c := by
  rw [addIndex_eq_ite h.tailLt h.count_le]
  by_cases hfull : RingFull r
  · rw [Ring.count_of_full c hfull, hfull.1, if_neg (by omega), Nat.add_sub_cancel]
  · rw [h.count_of_not_full hfull]
    obtain ⟨hhead, htail⟩ := h
    split_ifs <;> omega

/-- A slot that holds a queued byte is not the next one to be written. -/
theorem Ring.InRange.queued_ne_head {c : Nat} {r : Ring} (h : r.InRange c) {k : Nat} (hk : k < r.count c)
    (hroom : r.count c < c) : (r.tail + k) % c ≠ r.head := by
  rw [h.head_eq, addIndex_eq_ite h.tailLt (by omega), addIndex_eq_ite h.tailLt h.count_le]
  have htail := h.tailLt
  split_ifs <;> omega

theorem Ring.InRange.count_lt_of_not_full {c : Nat} {r : Ring} (h : r.InRange c) (hfull : ¬ RingFull r) :
    r.count c < c :=
  Nat.lt_of_le_of_ne h.count_le (mt h.full_iff_count.2 hfull)

theorem Ring.InRange.empty_iff_count {c : Nat} {r : Ring} (h : r.InRange c) : RingEmpty r ↔ r.count c = 0 := by
  refine ⟨Ring.count_of_empty c, fun hcount => by_contra fun hempty => ?_⟩
  rw [h.count_of_not_empty hempty] at hcount
  obtain ⟨hhead, htail⟩ := h
  split_ifs at hcount <;> omega

/-! ### The bytes a ring holds -/

theorem Ring.length_contents (w : Buffer) (c : Nat) (r : Ring) : (r.contents w c).length = r.count c := by
  simp [Ring.contents]

/-- A push adds its byte behind the others. -/
theorem Ring.InRange.contents_pushed {c : Nat} {r : Ring} (w : Buffer) (h : r.InRange c) (b : Byte)
    (hfull : ¬ RingFull r) : (Spec.pushed c r b).contents w c = r.contents w c ++ [b] := by
  have hroom := h.count_lt_of_not_full hfull
  have hold : ∀ k ∈ List.range (r.count c),
      (Spec.pushed c r b).slot w ((r.tail + k) % c) = r.slot w ((r.tail + k) % c) := fun k hk => by
    rw [Ring.slot, Ring.slot, Spec.pushed,
      Memory.read_write_other _ _ (h.queued_ne_head (List.mem_range.1 hk) hroom)]
  have hnew : (Spec.pushed c r b).slot w ((r.tail + r.count c) % c) = b := by
    rw [← h.head_eq]
    exact Ring.slot_of_read w (Memory.read_write_same _ _ _)
  rw [Ring.contents, h.count_pushed b hfull, List.range_succ, List.map_append]
  exact congrArg₂ (· ++ ·) (List.map_congr_left hold) (congrArg ([·]) hnew)

/-- A pop takes the front byte, the one at `tail`. -/
theorem Ring.InRange.contents_of_not_empty {c : Nat} {r : Ring} (w : Buffer) (h : r.InRange c) (hempty : ¬ RingEmpty r) :
    r.contents w c = r.slot w r.tail :: (Spec.popped c r).contents w c := by
  have hpos : r.count c = r.count c - 1 + 1 := by
    have := mt h.empty_iff_count.2 hempty
    omega
  have hfront : r.slot w ((r.tail + 0) % c) = r.slot w r.tail := by rw [Nat.add_zero, Nat.mod_eq_of_lt h.tailLt]
  have hnext : ∀ k, r.slot w ((r.tail + (k + 1)) % c) = (Spec.popped c r).slot w (((r.tail + 1) % c + k) % c) := fun k => by
    rw [Nat.mod_add_mod, Nat.add_right_comm, Nat.add_assoc]
    rfl
  rw [Ring.contents, Ring.contents, h.count_popped hempty, hpos, List.range_succ_eq_map, List.map_cons, List.map_map,
    hfront, Nat.add_sub_cancel]
  exact congrArg (r.slot w r.tail :: ·) (List.map_congr_left fun k _ => hnext k)

theorem Ring.InRange.contents_eq_nil_iff {c : Nat} {r : Ring} (w : Buffer) (h : r.InRange c) :
    r.contents w c = [] ↔ RingEmpty r := by
  rw [h.empty_iff_count, ← r.length_contents w c, List.length_eq_zero_iff]

/-! ### The ring's invariant -/

theorem Ring.inv_empty {c : Nat} (hc : 1 ≤ c) : Ring.empty.Inv c where
  canonical := .nil
  inside := nofun
  headLt := hc
  tailLt := hc
  written := nofun

theorem Ring.Inv.pushed {c : Nat} {r : Ring} (h : r.Inv c) (b : Byte) (hfull : ¬ RingFull r) :
    (Spec.pushed c r b).Inv c where
  canonical := Memory.write_wf r.head b h.canonical
  inside x hx := by
    obtain rfl | hx := Memory.mem_write hx
    · exact h.headLt
    · exact h.inside x hx
  headLt := (h.inRange.pushed b).headLt
  tailLt := h.tailLt
  written k hk := by
    rw [h.inRange.count_pushed b hfull] at hk
    change ((r.buf.write r.head b).read ((r.tail + k) % c)).isSome = true
    obtain hk | rfl := Nat.lt_succ_iff_lt_or_eq.1 hk
    · rw [Memory.read_write_other _ _ (h.inRange.queued_ne_head hk (h.inRange.count_lt_of_not_full hfull))]
      exact h.written k hk
    · rw [← h.inRange.head_eq, Memory.read_write_same]
      rfl

theorem Ring.Inv.popped {c : Nat} {r : Ring} (h : r.Inv c) (hempty : ¬ RingEmpty r) : (Spec.popped c r).Inv c where
  canonical := h.canonical
  inside := h.inside
  headLt := h.headLt
  tailLt := h.inRange.popped.tailLt
  written k hk := by
    rw [h.inRange.count_popped hempty] at hk
    have hwritten := h.written (k + 1) (by omega)
    rwa [Nat.add_comm k, ← Nat.add_assoc, ← Nat.mod_add_mod] at hwritten

/-! ### The bounded queue -/

/-- What a ring and a plain queue have in common after any operations: the outcome of `runQueue` on the bytes a ring holds
is that of `runRing` on the ring. -/
theorem runRing_eq_runQueue (w : Buffer) (c : Nat) (ops : List RingOp) {r : Ring} (h : r.Inv c) :
    match runQueue c ops (r.contents w c) with
    | .ok (vs, q) => ∃ r', runRing w c ops r = .ok (vs, r') ∧ r'.Inv c ∧ r'.contents w c = q
    | .error k => runRing w c ops r = .error k := by
  induction ops generalizing r with
  | nil => exact ⟨r, rfl, h, rfl⟩
  | cons op ops ih =>
    cases op with
    | push b =>
      rw [runQueue, runRing, r.length_contents]
      by_cases hfull : RingFull r
      · rw [if_pos (Ring.count_of_full c hfull), Ring.pushBack_of_full c b hfull]
      · rw [if_neg (mt h.inRange.full_iff_count.2 hfull), Ring.pushBack_of_not_full c b hfull,
          ← h.inRange.contents_pushed w b hfull]
        exact ih (h.pushed b hfull)
    | pop =>
      by_cases hempty : RingEmpty r
      · rw [(h.inRange.contents_eq_nil_iff w).2 hempty, runQueue, runRing, Ring.popFront_of_empty w c hempty]
      · rw [h.inRange.contents_of_not_empty w hempty, runQueue, runRing, Ring.popFront_of_not_empty w c hempty]
        have hrest := ih (h.popped hempty)
        cases hq : runQueue c ops ((Spec.popped c r).contents w c) with
        | error k =>
          rw [hq] at hrest
          simp only [hrest]
        | ok vq =>
          rw [hq] at hrest
          obtain ⟨r', hrun, hinv, hcontents⟩ := hrest
          exact ⟨r', by simp only [hrun], hinv, hcontents⟩

/-- Settles O26: a new ring holds no byte, and the count is the number of bytes held. -/
theorem ringBufferIsABoundedQueue : Obligations.RingBufferIsABoundedQueue := by
  unfold Obligations.RingBufferIsABoundedQueue
  intro w c ops hc
  have hrun := runRing_eq_runQueue w c ops (Ring.inv_empty hc)
  have hnew : Ring.empty.contents w c = [] := ((Ring.inv_empty hc).inRange.contents_eq_nil_iff w).2 ⟨rfl, rfl⟩
  rw [hnew] at hrun
  cases hq : runQueue c ops [] with
  | error k =>
    rw [hq] at hrun
    exact hrun
  | ok vq =>
    rw [hq] at hrun
    obtain ⟨r, hr, hinv, hcontents⟩ := hrun
    exact ⟨r, hr, hinv, hcontents, by rw [← hcontents, r.length_contents]⟩

end Sys2Proof.Machine
end

section
/-!
PROOFS. The invariant (20_memory.md R42, 10_state.md R22, R30, R31, 60_exceptions.md R115): it holds at reset, and the step of
each agent keeps it.
-/

namespace Sys2Proof.Machine

open Sys2Proof Sys2Proof.Spec

/-- Settles O19: at reset both ring buffers are the empty one, and nothing is outstanding. -/
theorem resetSatisfiesTheInvariant : Obligations.ResetSatisfiesTheInvariant where
  params := by decide
  tx := Ring.inv_empty (by decide)
  rx := Ring.inv_empty (by decide)
  btr := Nat.zero_le _
  reqInt := nofun
  stopIdle := nofun
  stopHph := nofun
  hphMid := nofun
  hpcLe := Nat.le_refl 0

/-- The schedule and the tick are no part of the invariant. -/
theorem State.Inv.takeMove {s : State} (h : s.Inv) : s.takeMove.Inv := by
  unfold State.takeMove
  split <;> exact { h with }

/-! ### The rings in it -/

section
variable {s : State} (h : s.Inv)
include h

theorem State.Inv.txPushed (b : Byte) (hfull : s.tx.isFull = false) : (s.txPushed b).Inv s.params.capacity :=
  h.tx.pushed b (s.tx.isFull_false.1 hfull)

theorem State.Inv.txPopped (hempty : s.tx.isEmpty = false) : s.txPopped.Inv s.params.capacity :=
  h.tx.popped (s.tx.isEmpty_false.1 hempty)

theorem State.Inv.rxPushed (b : Byte) (hfull : s.rx.isFull = false) : (s.rxPushed b).Inv s.params.capacity :=
  h.rx.pushed b (s.rx.isFull_false.1 hfull)

theorem State.Inv.rxPopped (hempty : s.rx.isEmpty = false) : s.rxPopped.Inv s.params.capacity :=
  h.rx.popped (s.rx.isEmpty_false.1 hempty)

/-! ### HOST -/

/-- A STOP is pending only at an END_TX or END_RX. -/
theorem State.Inv.stopp_of_not_end {w : Word} {i : Instr} (hfetch : s.fetchCommand = some w) (hi : decodeCommand w = i)
    (hendTx : i ≠ .endTx) (hendRx : i ≠ .endRx) : s.stopp = false := by
  by_contra hstopp
  obtain ⟨v, hv, hmid⟩ := h.hphMid (h.stopHph (Bool.eq_true_of_not_eq_false hstopp))
  obtain rfl : w = v := Option.some.inj (hfetch.symm.trans hv)
  rw [hi] at hmid
  exact hmid.elim hendTx hendRx

/-- A command that completes inside the program, with no STOP pending. -/
theorem State.Inv.completed (hhpc : s.hpc < s.params.program.length) (hstopp : s.stopp = false) : (completed s).Inv :=
  { h with
    stopHph := fun hstop => nomatch hstopp.symm.trans hstop
    hphMid := nofun
    hpcLe := hhpc }

end

/-- A request handed to an idle engine is then the one thing outstanding. -/
theorem State.Inv.requested {s : State} (h : s.Inv) (hbusy : s.engineBusy = false) (d : Byte) (es : List TraceEntry)
    (q : Req) : State.Inv { s with data := d, trace := es, req := q } := by
  obtain ⟨-, hint, hstopp⟩ := s.engineBusy_false.1 hbusy
  exact { h with
    reqInt := fun _ => hint
    stopIdle := fun hstop => nomatch hstopp.symm.trans hstop }

theorem HostStep.inv {s t : State} {w : Word} {i : Instr} (h : s.Inv) (hfetch : s.fetchCommand = some w)
    (hi : decodeCommand w = i) (hs : HostStep s i t) : t.Inv := by
  have hhpc : s.hpc < s.params.program.length := (List.getElem?_eq_some_iff.1 hfetch).1
  have hstopp := h.stopp_of_not_end hfetch hi
  cases hs with
  | waits => exact h
  | collides | overflows | illegal => exact { h with }
  | begins _ b _ hempty hbusy =>
    have hpush := { h with tx := h.txPushed b (Ring.isFull_of_isEmpty hempty) : State.Inv { s with tx := s.txPushed b } }
    exact (hpush.requested hbusy _ _ .start).completed hhpc (s.engineBusy_false.1 hbusy).2.2
  | queues b hfull =>
    have hpush := { h with tx := h.txPushed b hfull : State.Inv { s with tx := s.txPushed b } }
    exact hpush.completed hhpc (hstopp nofun nofun)
  | kicks b hempty hbusy =>
    have hpush := { h with tx := h.txPushed b (Ring.isFull_of_isEmpty hempty) : State.Inv { s with tx := s.txPushed b } }
    exact (hpush.requested hbusy _ _ .cont).completed hhpc (s.engineBusy_false.1 hbusy).2.2
  | stops _ hend _ hbusy =>
    obtain ⟨hreq, hint, -⟩ := s.engineBusy_false.1 hbusy
    have hmid : s.midCommand := ⟨w, hfetch, by rw [hi]; exact hend.imp And.left And.left⟩
    exact { h with
      stopIdle := fun _ => ⟨hreq, hint⟩
      stopHph := fun _ => rfl
      hphMid := fun _ => hmid }
  | endsTx _ hdone | endsRx _ hdone => exact { h.completed hhpc hdone with }
  | requests n hn =>
    have hbtr := { h with btr := hn : State.Inv { s with btr := s.btr + n.toNat } }
    exact hbtr.completed hhpc (hstopp nofun nofun)
  | reports _ _ hv =>
    have hnot : i ≠ .endTx ∧ i ≠ .endRx := by
      obtain ⟨rfl, -⟩ | ⟨rfl, -⟩ | ⟨rfl, -⟩ | ⟨rfl, -⟩ := hv <;> exact ⟨nofun, nofun⟩
    exact { h.completed hhpc (hstopp hnot.1 hnot.2) with }
  | takes hempty =>
    have hpop := { h with rx := h.rxPopped hempty : State.Inv { s with rx := s.rxPopped } }
    exact { hpop.completed hhpc (hstopp nofun nofun) with }

/-! ### SEQ and ENG -/

/-- SEQ's entry leaves the engine idle, for its one request. -/
theorem State.Inv.entered {s : State} (h : s.Inv) (c d : Byte) (es : List TraceEntry) (q : Req) :
    State.Inv { s with status := c, int := false, stopp := false, data := d, trace := es, req := q } :=
  { h with
    reqInt := fun _ => rfl
    stopIdle := nofun
    stopHph := nofun }

theorem SeqStep.inv {s t : State} {cls : EventClass} {c : Byte} (h : s.Inv) (hs : SeqStep s cls c t) : t.Inv := by
  have hbtr := hs.seqWrites.btr.trans h.btr
  cases hs with
  | collides | underflows | overflows => exact { h with }
  | starts | discards | clears => exact { h.entered _ _ _ _ with }
  | sent n a d _ _ _ _ hempty =>
    exact { h.entered c d (s.trace ++ [⟨.seq, a, d⟩]) a.leavesReq with tx := h.txPopped hempty, btr := hbtr }
  | stores _ _ hfull =>
    exact { h.entered c s.data s.trace (acknowledgement (s.btr - 1)).leavesReq with
      rx := h.rxPushed s.data hfull, btr := hbtr }

/-- A pending event is the one thing outstanding. -/
theorem State.Inv.free_of_int {s : State} (h : s.Inv) (hint : s.int = true) : s.req = .none ∧ s.stopp = false := by
  refine ⟨by_contra fun hreq => ?_, Bool.eq_false_iff.2 fun hstopp => ?_⟩
  · exact nomatch hint.symm.trans (h.reqInt hreq)
  · exact nomatch hint.symm.trans (h.stopIdle hstopp).2

/-- ENG answers only where a request stands, and so no STOP; a drop and a completed STOP leave less outstanding. -/
theorem MoveStep.inv {mv : Move} {s t : State} (h : s.Inv) (hs : MoveStep s mv t) : t.Inv := by
  cases hs with
  | none => exact h
  | host _ _ _ hfetch hi hs => exact hs.inv h hfetch hi
  | seq _ _ _ _ hs => exact hs.inv h
  | answer c d hreq =>
    exact { h with
      reqInt := fun hne => absurd rfl hne
      stopIdle := fun hstop => absurd (h.stopIdle hstop).1 hreq }
  | drop =>
    exact { h with
      reqInt := fun hne => absurd rfl hne
      stopIdle := fun hstop => ⟨rfl, (h.stopIdle hstop).2⟩ }
  | stop => exact { h with stopIdle := nofun, stopHph := nofun }

theorem stepBy_inv {mv : Move} {s t : State} (h : s.Inv) (hs : stepBy mv s = .next t) : t.Inv := (stepBy_next hs).2.inv h

/-- Settles O20: a step is a move from the state with that move taken. -/
theorem stepKeepsTheInvariant : Obligations.StepKeepsTheInvariant := by
  unfold Obligations.StepKeepsTheInvariant
  exact fun s t h hs => stepBy_inv h.takeMove hs

end Sys2Proof.Machine
end

section
/-!
PROOFS. The assembler (30_encoding.md R62, R63): how a line falls into tokens, how the number of an operand is read, and what
a line is read as.
-/

namespace Sys2Proof.Machine

open Sys2Proof Sys2Proof.Spec

/-! ### Tokens -/

/-- A character that is part of a token: neither a blank nor a comma. -/
def isTokenChar (c : Char) : Bool := decide (c ≠ ' ') && decide (c ≠ ',')

theorem tokens_cons_of_tokenChar {c : Char} (hc : isTokenChar c = true) (cs cur : List Char) :
    tokens (c :: cs) cur = tokens cs (c :: cur) := by
  simp only [isTokenChar, Bool.and_eq_true, decide_eq_true_eq] at hc
  rw [tokens, if_neg hc.1, if_neg hc.2]

/-- A run of token characters is taken up whole, in reverse. -/
theorem tokens_append {t : List Char} (ht : t.all isTokenChar = true) (cs cur : List Char) :
    tokens (t ++ cs) cur = tokens cs (t.reverse ++ cur) := by
  induction t generalizing cur with
  | nil => rfl
  | cons c t ih =>
    rw [List.all_cons, Bool.and_eq_true] at ht
    rw [List.cons_append, tokens_cons_of_tokenChar ht.1, ih ht.2, List.reverse_cons, List.append_assoc]
    rfl

/-- A token as the assembler can find one: not empty, and of token characters alone. -/
structure IsToken (t : List Char) : Prop where
  ne_nil : t ≠ []
  chars  : t.all isTokenChar = true

section
variable {t : List Char} (ht : IsToken t)
include ht

theorem IsToken.reverse_ne_nil : t.reverse ++ [] ≠ [] := by
  simpa using ht.ne_nil

theorem IsToken.tokens_end : tokens t [] = [t] := by
  have h := tokens_append ht.chars [] []
  rw [List.append_nil] at h
  rw [h, tokens, if_neg ht.reverse_ne_nil]
  simp

theorem IsToken.tokens_blank (cs : List Char) : tokens (t ++ ' ' :: cs) [] = t :: tokens cs [] := by
  rw [tokens_append ht.chars, tokens, if_neg ht.reverse_ne_nil, if_pos rfl]
  simp

theorem IsToken.tokens_comma (cs : List Char) : tokens (t ++ ',' :: cs) [] = t :: [','] :: tokens cs [] := by
  rw [tokens_append ht.chars, tokens, if_neg ht.reverse_ne_nil, if_neg (by decide), if_pos rfl]
  simp

end

theorem tokens_blank (cs : List Char) : tokens (' ' :: cs) [] = tokens cs [] := by
  rw [tokens, if_pos rfl, if_pos rfl, List.nil_append]

theorem tokens_lineOf {m : String} {t : List Char} (hm : IsToken m.toList) (ht : IsToken t) :
    tokens (lineOf m t) [] = [m.toList, t] := by
  rw [lineOf, hm.tokens_blank, ht.tokens_end]

theorem tokens_lineOf_comma {m : String} {t u : List Char} (hm : IsToken m.toList) (ht : IsToken t) (hu : IsToken u) :
    tokens (lineOf m (t ++ ',' :: ' ' :: u)) [] = [m.toList, t, [','], u] := by
  rw [lineOf, hm.tokens_blank, ht.tokens_comma, tokens_blank, hu.tokens_end]

/-! ### Numbers -/

/-- What a hexadecimal digit is to the assembler: its own value, a token character, and not the `x` of `0x`. -/
theorem hexDigit_facts :
    ∀ k < 16, digit (hexDigit k) = some k ∧ isTokenChar (hexDigit k) = true ∧ hexDigit k ≠ 'x' := by
  decide

theorem digit_hexDigit {k : Nat} (hk : k < 16) : digit (hexDigit k) = some k := (hexDigit_facts k hk).1

theorem isTokenChar_hexDigit {k : Nat} (hk : k < 16) : isTokenChar (hexDigit k) = true := (hexDigit_facts k hk).2.1

theorem hexDigit_ne_x {k : Nat} (hk : k < 16) : hexDigit k ≠ 'x' := (hexDigit_facts k hk).2.2

theorem isTokenChar_zero_x : isTokenChar '0' = true ∧ isTokenChar 'x' = true := by decide

theorem digits_hexDigit_cons {base k : Nat} (hbase : base ≤ 16) (hk : k < base) (acc : Nat) (cs : List Char) :
    digits base acc (hexDigit k :: cs) = digits base (acc * base + k) cs := by
  simp [digits, digit_hexDigit (Nat.lt_of_lt_of_le hk hbase), hk]

/-- A number without `0x` is decimal. -/
theorem number_decimal {c : Char} {cs : List Char} (h : cs.head? ≠ some 'x') : number (c :: cs) = digits 10 0 (c :: cs) := by
  unfold number
  split
  case h_4 => rfl
  all_goals simp_all

theorem number_hex (c : Char) (cs : List Char) : number ('0' :: 'x' :: c :: cs) = digits 16 0 (c :: cs) := rfl

/-- The token `t` is a number, of value `n`. -/
structure IsNumber (t : List Char) (n : Nat) : Prop where
  value : number t = some n
  token : IsToken t

/-- Decimal digits, at most three of them. -/
theorem isNumber_decimal_one {n : Nat} (hn : n < 10) : IsNumber [hexDigit n] n where
  value := by
    rw [number_decimal (by simp), digits_hexDigit_cons (by decide) hn, digits, Nat.zero_mul, Nat.zero_add]
  token := ⟨nofun, by simp [isTokenChar_hexDigit (k := n) (by omega)]⟩

theorem isNumber_decimal_two {n : Nat} (hn : n < 100) : IsNumber [hexDigit (n / 10), hexDigit (n % 10)] n where
  value := by
    have hx : hexDigit (n % 10) ≠ 'x' := hexDigit_ne_x (by omega)
    rw [number_decimal (by simpa using hx), digits_hexDigit_cons (by decide) (by omega),
      digits_hexDigit_cons (by decide) (by omega), digits]
    congr 1
    omega
  token := ⟨nofun, by
    simp [isTokenChar_hexDigit (k := n / 10) (by omega), isTokenChar_hexDigit (k := n % 10) (by omega)]⟩

theorem isNumber_decimal_three {n : Nat} (hn : n < 256) :
    IsNumber [hexDigit (n / 100), hexDigit (n / 10 % 10), hexDigit (n % 10)] n where
  value := by
    have hx : hexDigit (n / 10 % 10) ≠ 'x' := hexDigit_ne_x (by omega)
    rw [number_decimal (by simpa using hx), digits_hexDigit_cons (by decide) (by omega),
      digits_hexDigit_cons (by decide) (by omega), digits_hexDigit_cons (by decide) (by omega), digits]
    congr 1
    omega
  token := ⟨nofun, by
    simp [isTokenChar_hexDigit (k := n / 100) (by omega), isTokenChar_hexDigit (k := n / 10 % 10) (by omega),
      isTokenChar_hexDigit (k := n % 10) (by omega)]⟩

/-- `0x` and one or two digits. -/
theorem isNumber_hex_one {n : Nat} (hn : n < 16) : IsNumber ['0', 'x', hexDigit n] n where
  value := by
    rw [number_hex, digits_hexDigit_cons (Nat.le_refl 16) hn, digits, Nat.zero_mul, Nat.zero_add]
  token := ⟨nofun, by simp [isTokenChar_zero_x, isTokenChar_hexDigit hn]⟩

theorem isNumber_hex_two {n : Nat} (hn : n < 256) : IsNumber ['0', 'x', hexDigit (n / 16), hexDigit (n % 16)] n where
  value := by
    rw [number_hex, digits_hexDigit_cons (Nat.le_refl 16) (by omega), digits_hexDigit_cons (Nat.le_refl 16) (by omega),
      digits]
    congr 1
    omega
  token := ⟨nofun, by
    simp [isTokenChar_zero_x, isTokenChar_hexDigit (k := n / 16) (by omega),
      isTokenChar_hexDigit (k := n % 16) (by omega)]⟩

/-- Every spelling of R62 is read as the number it spells. -/
theorem isNumber_of_mem_spellings {n : Nat} (hn : n < 256) {t : List Char} (ht : t ∈ spellings n) : IsNumber t n := by
  have hdecimal : IsNumber (if n < 10 then [hexDigit n] else if n < 100 then [hexDigit (n / 10), hexDigit (n % 10)]
      else [hexDigit (n / 100), hexDigit (n / 10 % 10), hexDigit (n % 10)]) n := by
    split
    case isTrue hn => exact isNumber_decimal_one hn
    case isFalse =>
      split
      case isTrue hn => exact isNumber_decimal_two hn
      case isFalse => exact isNumber_decimal_three hn
  simp only [spellings] at ht
  split at ht
  case isTrue hn16 =>
    simp only [List.mem_cons, List.not_mem_nil, or_false] at ht
    obtain rfl | rfl | rfl := ht
    · exact hdecimal
    · exact isNumber_hex_one hn16
    · exact isNumber_hex_two hn
  case isFalse =>
    simp only [List.mem_cons, List.not_mem_nil, or_false] at ht
    obtain rfl | rfl := ht
    · exact hdecimal
    · exact isNumber_hex_two hn

/-! ### Operands -/

theorem addrOperand_of_number {t : List Char} {n : Nat} (h : number t = some n) :
    addrOperand t = if n < 128 then some (BitVec.ofNat 7 n) else none := by
  rw [addrOperand, h]

theorem byteOperand_of_number {t : List Char} {n : Nat} (h : number t = some n) :
    byteOperand t = if n < 256 then some (BitVec.ofNat 8 n) else none := by
  rw [byteOperand, h]

theorem addrOperand_of_spelling {a : Addr} {t : List Char} (h : IsNumber t a.toNat) : addrOperand t = some a := by
  rw [addrOperand_of_number h.value, if_pos a.isLt, BitVec.ofNat_toNat, BitVec.setWidth_eq]

theorem byteOperand_of_spelling {n : Byte} {t : List Char} (h : IsNumber t n.toNat) : byteOperand t = some n := by
  rw [byteOperand_of_number h.value, if_pos n.isLt, BitVec.ofNat_toNat, BitVec.setWidth_eq]

/-! ### Lines with one operand

The four commands with an operand have different names, so a line is read by the first test its mnemonic passes. -/

theorem named_iff {t : List Char} {m a : String} : named t m a = true ↔ t = m.toList ∨ t = a.toList := by
  simp [named]

section
variable {line m x : List Char} (h : tokens line [] = [m, x])
include h

theorem assembleLine_beginTx (hm : named m "BEGIN_TX" "beginTransmission" = true) :
    assembleLine line = (addrOperand x).map .beginTx := by
  simp only [assembleLine, h, hm, if_true]

theorem assembleLine_write (hm : named m "WRITE" "write" = true) : assembleLine line = (byteOperand x).map .write := by
  have hother : named m "BEGIN_TX" "beginTransmission" = false := by
    obtain rfl | rfl := named_iff.1 hm <;> decide
  simp only [assembleLine, h, hm, hother, if_true, Bool.false_eq_true, if_false]

theorem assembleLine_beginRx (hm : named m "BEGIN_RX" "beginReception" = true) :
    assembleLine line = (addrOperand x).map .beginRx := by
  have hother : named m "BEGIN_TX" "beginTransmission" = false ∧ named m "WRITE" "write" = false := by
    obtain rfl | rfl := named_iff.1 hm <;> decide
  simp only [assembleLine, h, hm, hother, if_true, Bool.false_eq_true, if_false]

theorem assembleLine_requestBytes (hm : named m "REQUEST_BYTES" "requestBytes" = true) :
    assembleLine line = (byteOperand x).map .requestBytes := by
  have hother : named m "BEGIN_TX" "beginTransmission" = false ∧ named m "WRITE" "write" = false ∧
      named m "BEGIN_RX" "beginReception" = false := by
    obtain rfl | rfl := named_iff.1 hm <;> decide
  simp only [assembleLine, h, hm, hother, if_true, Bool.false_eq_true, if_false]

/-- A number above 255 is no operand of any command. -/
theorem assembleLine_of_byte_out_of_range {n : Nat} (hx : number x = some n) (hn : 255 < n) : assembleLine line = none := by
  have haddr : addrOperand x = none := (addrOperand_of_number hx).trans (if_neg (by omega))
  have hbyte : byteOperand x = none := (byteOperand_of_number hx).trans (if_neg (by omega))
  simp only [assembleLine, h, haddr, hbyte, Option.map_none, ite_self]

end

theorem assembleLine_requestFrom {line x y : List Char}
    (h : tokens line [] = ["REQUEST_FROM".toList, x, [','], y]) {a : Addr} {n : Byte} (ha : addrOperand x = some a)
    (hn : byteOperand y = some n) : assembleLine line = some (.requestFrom a n) := by
  simp only [assembleLine, h, ha, hn, if_true]

theorem assembleLine_requestFrom_of_out_of_range {line m x y : List Char} (h : tokens line [] = [m, x, [','], y])
    (hxy : addrOperand x = none ∨ byteOperand y = none) : assembleLine line = none := by
  simp only [assembleLine, h, ite_eq_right_iff]
  intro _
  obtain hx | hy := hxy
  · rw [hx]
  · rw [hy]
    split <;> simp_all

/-! ### What a line can be read as -/

/-- The instructions R62 and R63 have a line for. -/
inductive IsLine : Instr → Prop where
  | beginTx (a : Addr) : IsLine (.beginTx a)
  | write (b : Byte) : IsLine (.write b)
  | endTx : IsLine .endTx
  | beginRx (a : Addr) : IsLine (.beginRx a)
  | requestBytes (n : Byte) : IsLine (.requestBytes n)
  | available : IsLine .available
  | read : IsLine .read
  | endRx : IsLine .endRx
  | getStatus : IsLine .getStatus
  | getBtr : IsLine .getBtr
  | requestFrom (a : Addr) (n : Byte) : IsLine (.requestFrom a n)

theorem isLine_of_assembleLine {line : List Char} {i : Instr} (h : assembleLine line = some i) : IsLine i := by
  unfold assembleLine at h
  split at h
  case h_1 =>
    split_ifs at h <;> cases h <;> constructor
  case h_2 =>
    split_ifs at h <;> obtain ⟨v, -, rfl⟩ := Option.map_eq_some_iff.1 h <;> constructor
  case h_3 =>
    split_ifs at h
    split at h <;> cases h
    constructor
  case h_4 => exact nomatch h

/-- What is read in a line is no illegal word and no event, so it is what its words decode to. -/
theorem IsLine.wellFormed {i : Instr} (h : IsLine i) (m : StatusMap) : i.wellFormed m = true := by
  cases h <;> rfl

theorem IsLine.decode_commandWords {i : Instr} (h : IsLine i) : (commandWords i).map decodeCommand = expand i := by
  have hdecode := decodeOfEncodeIsTheInstruction [] i (h.wellFormed [])
  cases h <;> exact hdecode

theorem IsLine.ne_illegal_of_mem_expand {i j : Instr} (h : IsLine i) (hj : j ∈ expand i) (w : Word) : j ≠ .illegal w := by
  cases h with
  | requestFrom a n =>
    simp only [expand, List.mem_cons, List.not_mem_nil, or_false] at hj
    obtain rfl | rfl | rfl | rfl := hj <;> exact nofun
  | _ =>
    obtain rfl := List.mem_singleton.1 hj
    exact nofun

/-- The words of a line are legal (R60): each decodes to a command. -/
theorem IsLine.legal {i : Instr} (h : IsLine i) {w : Word} (hw : w ∈ commandWords i) : isIllegalWord w = false := by
  have hmem : decodeCommand w ∈ expand i := h.decode_commandWords ▸ List.mem_map_of_mem hw
  exact Bool.eq_false_iff.2 fun hill => h.ne_illegal_of_mem_expand hmem w ((decodeCommand_eq_illegal_iff w).2 hill)

theorem legal_of_assemble {text : List (List Char)} {ws : List Word} (h : assemble text = some ws) :
    ∀ w ∈ ws, isIllegalWord w = false := by
  induction text generalizing ws with
  | nil =>
    cases h
    exact nofun
  | cons line text ih =>
    unfold assemble at h
    split at h
    case h_1 hline htext =>
      cases h
      intro w hw
      obtain hw | hw := List.mem_append.1 hw
      · exact (isLine_of_assembleLine hline).legal hw
      · exact ih htext w hw
    case h_2 => exact nomatch h

/-! ### Lines as R62 and R63 write them -/

theorem named_of_mem {x y m : String} (hm : m ∈ [x, y]) : named m.toList x y = true := by
  simp only [List.mem_cons, List.not_mem_nil, or_false] at hm
  exact named_iff.2 (hm.imp (congrArg String.toList) (congrArg String.toList))

/-- A line of a mnemonic or a function name and one operand is read by the tokens it falls into. -/
theorem assembleLine_lineOf {x y : String} {t : List Char} {r : Option Instr}
    (hxy : ∀ m ∈ [x, y], m.toList ≠ [] ∧ m.toList.all isTokenChar = true)
    (hf : ∀ {line m : List Char}, tokens line [] = [m, t] → named m x y = true → assembleLine line = r)
    (ht : IsToken t) : ∀ m ∈ [x, y], assembleLine (lineOf m t) = r :=
  fun m hm => hf (tokens_lineOf ⟨(hxy m hm).1, (hxy m hm).2⟩ ht) (named_of_mem hm)

/-- The commands with an address, and REQUEST_FROM. -/
theorem assembleLine_of_addr_spelling {a : Addr} {t : List Char} (ht : IsNumber t a.toNat) :
    (∀ m ∈ ["BEGIN_TX", "beginTransmission"], assembleLine (lineOf m t) = some (.beginTx a)) ∧
      (∀ m ∈ ["BEGIN_RX", "beginReception"], assembleLine (lineOf m t) = some (.beginRx a)) ∧
      ∀ (n : Byte) (u : List Char), IsNumber u n.toNat →
        assembleLine (lineOf "REQUEST_FROM" (t ++ ',' :: ' ' :: u)) = some (.requestFrom a n) := by
  have haddr := addrOperand_of_spelling ht
  refine ⟨?_, ?_, fun n u hu => ?_⟩
  · exact assembleLine_lineOf (by decide) (fun h hm => by rw [assembleLine_beginTx h hm, haddr, Option.map_some]) ht.token
  · exact assembleLine_lineOf (by decide) (fun h hm => by rw [assembleLine_beginRx h hm, haddr, Option.map_some]) ht.token
  · have hm : IsToken "REQUEST_FROM".toList := ⟨by decide, by decide⟩
    exact assembleLine_requestFrom (tokens_lineOf_comma hm ht.token hu.token) haddr (byteOperand_of_spelling hu)

/-- The commands with a byte or a count. -/
theorem assembleLine_of_byte_spelling {n : Byte} {t : List Char} (ht : IsNumber t n.toNat) :
    (∀ m ∈ ["WRITE", "write"], assembleLine (lineOf m t) = some (.write n)) ∧
      ∀ m ∈ ["REQUEST_BYTES", "requestBytes"], assembleLine (lineOf m t) = some (.requestBytes n) := by
  have hbyte := byteOperand_of_spelling ht
  refine ⟨?_, ?_⟩
  · exact assembleLine_lineOf (by decide) (fun h hm => by rw [assembleLine_write h hm, hbyte, Option.map_some]) ht.token
  · exact assembleLine_lineOf (by decide) (fun h hm => by rw [assembleLine_requestBytes h hm, hbyte, Option.map_some]) ht.token

/-- Settles O7: the lines without operand are evaluated; those with one by their tokens and the number of the operand. -/
theorem assemblerWritesLegalWordsOnly : Obligations.AssemblerWritesLegalWordsOnly := by
  unfold Obligations.AssemblerWritesLegalWordsOnly
  refine ⟨by decide, fun a t ht => ?addr, fun n t ht => ?byte, fun line m x n h hx => ?inRange, fun line i h => ?line,
    fun line m x n h hx hn => ?outOfRange, fun line m x y a n h hx hy hn => ?requestFrom, fun text ws => legal_of_assemble⟩
  case addr =>
    obtain ⟨hbeginTx, hbeginRx, hrequestFrom⟩ :=
      assembleLine_of_addr_spelling (isNumber_of_mem_spellings (by have := a.isLt; omega) ht)
    exact ⟨hbeginTx, hbeginRx, fun n u hu => hrequestFrom n u (isNumber_of_mem_spellings n.isLt hu)⟩
  case byte => exact assembleLine_of_byte_spelling (isNumber_of_mem_spellings n.isLt ht)
  case inRange =>
    have haddr : n ≤ 127 → addrOperand x = some (BitVec.ofNat 7 n) := fun hn =>
      (addrOperand_of_number hx).trans (if_pos (by omega))
    have hbyte : n ≤ 255 → byteOperand x = some (BitVec.ofNat 8 n) := fun hn =>
      (byteOperand_of_number hx).trans (if_pos (by omega))
    exact ⟨fun hn hm => by rw [assembleLine_beginTx h hm, haddr hn, Option.map_some],
      fun hn hm => by rw [assembleLine_beginRx h hm, haddr hn, Option.map_some],
      fun hn hm => by rw [assembleLine_write h hm, hbyte hn, Option.map_some],
      fun hn hm => by rw [assembleLine_requestBytes h hm, hbyte hn, Option.map_some]⟩
  case line => cases isLine_of_assembleLine h <;> simp
  case outOfRange =>
    obtain hn | ⟨hn, hm⟩ := hn
    · exact assembleLine_of_byte_out_of_range h hx hn
    · have haddr : addrOperand x = none := (addrOperand_of_number hx).trans (if_neg (by omega))
      obtain hm | hm := hm
      · rw [assembleLine_beginTx h hm, haddr, Option.map_none]
      · rw [assembleLine_beginRx h hm, haddr, Option.map_none]
  case requestFrom =>
    refine assembleLine_requestFrom_of_out_of_range h (hn.imp (fun ha => ?_) fun hn => ?_)
    · exact (addrOperand_of_number hx).trans (if_neg (by omega))
    · exact (byteOperand_of_number hy).trans (if_neg (by omega))

end Sys2Proof.Machine
end

section
/-!
PROOFS. Moves and waiting (20_memory.md R46, 42_host_commands.md R76, R77, 43_sequencer.md R90, 44_bus_engine.md R104 to
R107): the step of the scheduled move, and that an agent without a step changes nothing, in one move and in any number.
-/

namespace Sys2Proof.Machine

open Sys2Proof Sys2Proof.Spec

/-! ### The scheduled move -/

theorem step_of_schedule {s : State} {mv : Move} {rest : List Move} (h : s.schedule = mv :: rest) :
    step s = stepBy mv { s with schedule := rest } := by
  simp only [step, State.nextMove, State.takeMove, h]

theorem step_of_no_schedule {s : State} (h : s.schedule = []) :
    step s = stepBy (Config.freeMove s.tick) { s with tick := s.tick + 1 } := by
  simp only [step, State.nextMove, State.takeMove, h]

theorem stepBy_of_fault {s : State} {r : FaultRecord} (mv : Move) (h : s.fault = some r) :
    stepBy mv s = .fault (.stopped r) := by
  simp only [stepBy, h]

theorem stepBy_host_of_no_command {s : State} (hf : s.fault = none) (h : s.fetchCommand = none) :
    stepBy .host s = .next s := by
  simp only [stepBy, hf, hostMove, h]

theorem stepBy_seq_of_no_event {s : State} (hf : s.fault = none) (h : s.int = false) : stepBy .seq s = .next s := by
  simp [stepBy, hf, seqMove, h]

/-- Settles O9: the move at the head of the schedule or the free one; HOST past its program and SEQ without event. -/
theorem stepMakesTheScheduledMove : Obligations.StepMakesTheScheduledMove := by
  unfold Obligations.StepMakesTheScheduledMove
  exact fun s => ⟨fun mv rest => step_of_schedule, step_of_no_schedule,
    fun hf hhpc => stepBy_host_of_no_command hf (List.getElem?_eq_none hhpc), stepBy_seq_of_no_event⟩

/-- Settles O8: what HOST and SEQ decode is the instruction whose encoding stands there. -/
theorem stepRunsTheDecodedInstruction : Obligations.StepRunsTheDecodedInstruction := by
  unfold Obligations.StepRunsTheDecodedInstruction
  intro s rest i hf hi
  refine ⟨fun w hsched hw hencode => ?_, fun hsched hint hencode => ?_⟩
  · rw [step_of_schedule hsched, ← decodeCommand_of_encode hi hencode]
    exact stepBy_host (s := { s with schedule := rest }) hf hw
  · rw [step_of_schedule hsched, ← decodeEvent_of_encode hi hencode]
    exact stepBy_seq (s := { s with schedule := rest }) hf hint

/-! ### The guards -/

theorem waitUntil_of_false {p : Bool} (s : State) (act : Result) (h : p = false) : waitUntil p s act = .next s :=
  if_neg (Bool.eq_false_iff.1 h)

theorem waitUntil_of_true {p : Bool} (s : State) (act : Result) (h : p = true) : waitUntil p s act = act := if_pos h

/-- REQUEST_FROM stands for BEGIN_RX and is no command of its own; a command that does not wait has no false guard. -/
theorem exec_of_guard_false {i : Instr} {s : State} (hi : ∀ a n, i ≠ .requestFrom a n) (h : hostGuard i s = false) :
    exec i s = .next s := by
  cases i with
  | beginTx | beginRx | write => exact waitUntil_of_false s _ h
  | endTx =>
    simp only [hostGuard, exec, execEndTx] at h ⊢
    cases hph : s.hph <;> simp only [hph] at h ⊢ <;> exact waitUntil_of_false s _ h
  | endRx =>
    simp only [hostGuard, exec, execEndRx] at h ⊢
    cases hph : s.hph <;> simp only [hph] at h ⊢ <;> exact waitUntil_of_false s _ h
  | requestFrom a n => exact absurd rfl (hi a n)
  | _ => exact nomatch h

theorem Ring.isEmpty_false_iff (r : Ring) : r.isEmpty = false ↔ ¬ RingEmpty r := r.isEmpty_false

theorem hostGuard_write_false (b : Byte) (s : State) : hostGuard (.write b) s = false ↔ RingFull s.tx := by
  simp [hostGuard, ← s.tx.isFull_iff]

theorem hostGuard_endTx_false (s : State) :
    hostGuard .endTx s = false ↔ (s.hph = .zero ∧ ¬ RingEmpty s.tx) ∨ (s.hph = .one ∧ s.stopp = true) := by
  cases hph : s.hph <;> simp [hostGuard, hph, s.tx.isEmpty_false_iff]

theorem hostGuard_endRx_false (s : State) :
    hostGuard .endRx s = false ↔ (s.hph = .zero ∧ s.btr ≠ 0) ∨ (s.hph = .one ∧ s.stopp = true) := by
  cases hph : s.hph <;> simp [hostGuard, hph]

/-- Settles O11: a command that waits, and the five guards that can be false. -/
theorem commandWaitsWhileGuardIsFalse : Obligations.CommandWaitsWhileGuardIsFalse := by
  unfold Obligations.CommandWaitsWhileGuardIsFalse
  exact ⟨fun i s => exec_of_guard_false, fun _ s => s.tx.isEmpty_false_iff, fun _ s => s.tx.isEmpty_false_iff,
    hostGuard_write_false, hostGuard_endTx_false, hostGuard_endRx_false⟩

/-! ### Moves without a step -/

theorem decodeCommand_ne_requestFrom (w : Word) (a : Addr) (n : Byte) : decodeCommand w ≠ .requestFrom a n := fun h =>
  nomatch h ▸ decodeCommand_command w

/-! FAULT apart, what `enabled` asks of each agent. -/

theorem State.enabled_host {s : State} (hf : s.fault = none) : s.enabled .host = s.hostEnabled := by
  simp [State.enabled, hf]

theorem State.enabled_seq {s : State} (hf : s.fault = none) : s.enabled .seq = s.int := by
  simp [State.enabled, hf]

theorem State.enabled_engAnswer {s : State} (hf : s.fault = none) (c d : Byte) :
    s.enabled (.engAnswer c d) = s.answerEnabled := by
  simp [State.enabled, hf]

theorem State.enabled_engDrop {s : State} (hf : s.fault = none) : s.enabled .engDrop = s.dropEnabled := by
  simp [State.enabled, hf]

theorem State.enabled_engStop {s : State} (hf : s.fault = none) : s.enabled .engStop = s.stopp := by
  simp [State.enabled, hf]

/-- A HOST that has no step has finished, or its command waits. -/
theorem stepBy_host_of_not_enabled {s : State} (hf : s.fault = none) (h : s.hostEnabled = false) :
    stepBy .host s = .next s := by
  cases hw : s.fetchCommand with
  | none => exact stepBy_host_of_no_command hf hw
  | some w =>
    rw [stepBy_host hf hw]
    have hguard : hostGuard (decodeCommand w) s = false := by simpa only [State.hostEnabled, hw] using h
    exact exec_of_guard_false (decodeCommand_ne_requestFrom w) hguard

theorem stepBy_of_not_enabled {mv : Move} {s : State} (hf : s.fault = none) (h : s.enabled mv = false) :
    stepBy mv s = .next s := by
  cases mv with
  | host => exact stepBy_host_of_not_enabled hf (State.enabled_host hf ▸ h)
  | seq => exact stepBy_seq_of_no_event hf (State.enabled_seq hf ▸ h)
  | engAnswer c d => simp [stepBy, hf, engAnswerMove, State.enabled_engAnswer hf c d ▸ h]
  | engDrop => simp [stepBy, hf, engDropMove, State.enabled_engDrop hf ▸ h]
  | engStop => simp [stepBy, hf, engStopMove, State.enabled_engStop hf ▸ h]

/-- Settles O10: each agent without a step, and the faulted machine. -/
theorem moveWithoutStepChangesNothing : Obligations.MoveWithoutStepChangesNothing := by
  unfold Obligations.MoveWithoutStepChangesNothing
  exact ⟨fun mv s => stepBy_of_not_enabled, fun s r h => stepBy_of_fault s.nextMove (s.takeMove_fault.trans h)⟩

/-! ### Runs -/

theorem runMoves_cons {mv : Move} {s t : State} (h : stepBy mv s = .next t) (mvs : List Move) :
    runMoves (mv :: mvs) s = runMoves mvs t := by
  rw [runMoves, h]

theorem runMoves_append {ms : List Move} {s t : State} (h : runMoves ms s = .next t) (ns : List Move) :
    runMoves (ms ++ ns) s = runMoves ns t := by
  induction ms generalizing s with
  | nil =>
    cases h
    rfl
  | cons mv ms ih =>
    rw [runMoves] at h
    split at h
    case h_1 hstep =>
      rw [List.cons_append, runMoves_cons hstep]
      exact ih h
    all_goals exact nomatch h

/-- Where none of the moves has a step, no number of them changes anything. -/
theorem runMoves_of_not_enabled {s : State} (hf : s.fault = none) {mvs : List Move}
    (h : ∀ mv ∈ mvs, s.enabled mv = false) : runMoves mvs s = .next s := by
  induction mvs with
  | nil => rfl
  | cons mv mvs ih =>
    rw [runMoves_cons (stepBy_of_not_enabled hf (h mv List.mem_cons_self))]
    exact ih fun mv hmv => h mv (List.mem_cons_of_mem _ hmv)

/-- Settles O13: HOST waits and SEQ has no event, so neither has a step in that state, which therefore stands. -/
theorem silentEngineLeavesHostWaiting : Obligations.SilentEngineLeavesHostWaiting := by
  unfold Obligations.SilentEngineLeavesHostWaiting
  intro mvs s hmoves hf hint hhost
  refine runMoves_of_not_enabled hf fun mv hmv => ?_
  obtain rfl | rfl := hmoves mv hmv
  · exact (State.enabled_host hf).trans hhost
  · exact (State.enabled_seq hf).trans hint

/-! ### Requests that leave nothing to answer -/

/-- Settles O16: neither RELEASE nor STOP stands in REQ, which an idle engine had empty. -/
theorem releaseAndStopLeaveNoRequest : Obligations.ReleaseAndStopLeaveNoRequest := by
  unfold Obligations.ReleaseAndStopLeaveNoRequest
  intro g s t
  have hanswer : ∀ u : State, u.req = .none → u.answerEnabled = false ∧ u.dropEnabled = false := fun u hu => by
    simp [State.answerEnabled, State.dropEnabled, hu]
  refine ⟨fun h => ?_, fun h => ?_⟩ <;>
    have hidle : Idle s := s.engineBusy_false.1 (State.issue_ok h).1
  · rw [State.issue_release_of_idle g hidle] at h
    cases h
    exact ⟨rfl, hanswer _ hidle.1⟩
  · rw [State.issue_stop_of_idle g hidle] at h
    cases h
    exact ⟨rfl, hanswer _ hidle.1⟩

end Sys2Proof.Machine
end

section
/-!
PROOFS. The host commands that wait (42_host_commands.md R79 to R82, R86), REQUEST_FROM (30_encoding.md R63), and the end of a
write transaction by one STOP (R81, 44_bus_engine.md R106).
-/

namespace Sys2Proof.Machine

open Sys2Proof Sys2Proof.Spec

/-! ### BEGIN_TX and BEGIN_RX -/

theorem State.pushTx_of_not_full {s : State} (b : Byte) (h : ¬ RingFull s.tx) :
    s.pushTx b = .ok { s with tx := pushed s.params.capacity s.tx b } := by
  rw [State.pushTx, Ring.pushBack_of_not_full _ _ h]

/-- The shared step of the begin commands: a push into an empty TX cannot fail, so only the engine can refuse. -/
theorem beginTransaction_cases (a : Addr) (d : Direction) (s : State) :
    BeginCases (slaByte a d) s (beginTransaction a d s) := by
  refine ⟨fun hwait => waitUntil_of_false s _ (s.tx.isEmpty_false_iff.2 hwait), fun hempty hbusy => ?_,
    fun hempty hidle => ?_⟩ <;>
    rw [beginTransaction, waitUntil_of_true s _ (s.tx.isEmpty_iff.2 hempty),
      State.pushTx_of_not_full _ (Ring.not_full_of_empty hempty)]
  · have hbusy : ¬ Idle { s with tx := pushed s.params.capacity s.tx (slaByte a d) } := hbusy
    simp only [State.issue_of_not_idle .host .start hbusy]
    rfl
  · have hidle : Idle { s with tx := pushed s.params.capacity s.tx (slaByte a d) } := hidle
    simp only [State.issue_of_idle .host (a := .start) nofun hidle]
    rfl

/-- Settles O27: BEGIN_TX with the SLA byte of the write direction. -/
theorem beginTxPushesSlaWriteAndStarts : Obligations.BeginTxPushesSlaWriteAndStarts := by
  unfold Obligations.BeginTxPushesSlaWriteAndStarts
  intro a s
  rw [← slaByte_write]
  exact beginTransaction_cases a .write s

theorem exec_beginRx_cases (a : Addr) (s : State) : BeginCases (a ++ (1 : BitVec 1)) s (exec (.beginRx a) s) := by
  rw [← slaByte_read]
  exact beginTransaction_cases a .read s

/-- Settles O28: BEGIN_RX with the SLA byte of the read direction. -/
theorem beginRxPushesSlaReadAndStarts : Obligations.BeginRxPushesSlaReadAndStarts := by
  unfold Obligations.BeginRxPushesSlaReadAndStarts
  exact exec_beginRx_cases

/-! ### REQUEST_FROM -/

/-- The four words of R63, as that rule writes them. -/
theorem commandWords_requestFrom (a : Addr) (n : Byte) :
    commandWords (.requestFrom a n) = [0x4000 ||| a.setWidth 16, 0x5000 ||| n.setWidth 16, 0x8000, 0x6000] := by
  simp only [commandWords, encode, commandWord_setWidth]
  rfl

/-! The words of `ws` put into a list at `k`: what stands before, among and after them. -/

theorem length_take_append {l : List Word} (ws : List Word) {k : Nat} (hk : k ≤ l.length) :
    (l.take k ++ ws).length = k + ws.length := by
  rw [List.length_append, List.length_take_of_le hk]

theorem getElem?_insert_before {l ws : List Word} {k j : Nat} (hk : k ≤ l.length) (hj : j < k) :
    (l.take k ++ ws ++ l.drop k)[j]? = l[j]? := by
  rw [List.append_assoc, List.getElem?_append_left (by rwa [List.length_take_of_le hk]), List.getElem?_take_of_lt hj]

theorem getElem?_insert_at {l ws : List Word} {k j : Nat} (hk : k ≤ l.length) (hj : j < ws.length) :
    (l.take k ++ ws ++ l.drop k)[k + j]? = ws[j]? := by
  rw [List.getElem?_append_left (by rw [length_take_append ws hk]; omega),
    List.getElem?_append_right (by rw [List.length_take_of_le hk]; omega), List.length_take_of_le hk,
    Nat.add_sub_cancel_left]

theorem getElem?_insert_after {l ws : List Word} {k j : Nat} (hk : k ≤ l.length) (hj : k ≤ j) :
    (l.take k ++ ws ++ l.drop k)[j + ws.length]? = l[j]? := by
  rw [List.getElem?_append_right (by rw [length_take_append ws hk]; omega), List.getElem?_drop, length_take_append ws hk]
  congr 1
  omega

/-- Settles O37: the program with the four words put in at HPC, and the step of BEGIN_RX in it. -/
theorem requestFromIsItsFourWords : Obligations.RequestFromIsItsFourWords := by
  unfold Obligations.RequestFromIsItsFourWords
  intro a n s hhpc
  have hwords := commandWords_requestFrom a n
  have hlength : (commandWords (.requestFrom a n)).length = 4 := by rw [hwords]; rfl
  have hat : ∀ j < 4, (s.expandHere (.requestFrom a n)).params.program[s.hpc + j]? = (commandWords (.requestFrom a n))[j]? :=
    fun j hj => getElem?_insert_at hhpc (hlength ▸ hj)
  rw [hwords] at hat
  refine ⟨_, fun k hk => getElem?_insert_before hhpc hk, hat 0 (by decide), hat 1 (by decide), hat 2 (by decide),
    hat 3 (by decide), fun k hk => ?_, exec_beginRx_cases a (s.expandHere (.requestFrom a n))⟩
  have hafter := getElem?_insert_after (ws := commandWords (.requestFrom a n)) hhpc hk
  rwa [hlength] at hafter

/-! ### WRITE -/

theorem exec_write_of_full {b : Byte} {s : State} (h : RingFull s.tx) : exec (.write b) s = .next s :=
  exec_of_guard_false nofun ((hostGuard_write_false b s).2 h)

theorem exec_write_of_room {b : Byte} {s : State} (hfull : ¬ RingFull s.tx) (hempty : ¬ RingEmpty s.tx) :
    exec (.write b) s = .next (completed { s with tx := pushed s.params.capacity s.tx b }) := by
  have hroom : (!s.tx.isFull) = true := by simpa using mt s.tx.isFull_iff.1 hfull
  simp only [exec, execWrite, waitUntil_of_true s _ hroom, State.pushTx_of_not_full b hfull,
    s.tx.isEmpty_false_iff.2 hempty, Bool.false_eq_true, if_false]
  rfl

/-- The kick: on an empty TX the byte is queued, loaded and sent, unless the engine refuses. -/
theorem exec_write_of_empty (b : Byte) {s : State} (hempty : RingEmpty s.tx) :
    (Idle s → exec (.write b) s = .next (completed { s with
        tx := pushed s.params.capacity s.tx b
        data := b
        trace := s.trace ++ [⟨.host, .cont, b⟩]
        req := .cont })) ∧
      (¬ Idle s → exec (.write b) s = .next (faulted s .host .requestCollision)) := by
  have hfull := Ring.not_full_of_empty hempty
  have hroom : (!s.tx.isFull) = true := by simpa using mt s.tx.isFull_iff.1 hfull
  simp only [exec, execWrite, waitUntil_of_true s _ hroom, State.pushTx_of_not_full b hfull, s.tx.isEmpty_iff.2 hempty,
    if_true]
  refine ⟨fun hidle => ?_, fun hbusy => ?_⟩
  · have hidle : Idle { s with tx := pushed s.params.capacity s.tx b, data := b } := hidle
    simp only [State.issue_of_idle .host (a := .cont) nofun hidle]
    rfl
  · have hbusy : ¬ Idle { s with tx := pushed s.params.capacity s.tx b, data := b } := hbusy
    simp only [State.issue_of_not_idle .host .cont hbusy]
    rfl

/-- Settles O29: a full TX, one with room, and an empty one with an idle and a busy engine. -/
theorem writeQueuesAndKicksAnEmptyTx : Obligations.WriteQueuesAndKicksAnEmptyTx := by
  unfold Obligations.WriteQueuesAndKicksAnEmptyTx
  exact fun b s => ⟨exec_write_of_full, exec_write_of_room, fun hempty => (exec_write_of_empty b hempty).1,
    fun hempty => (exec_write_of_empty b hempty).2⟩

/-! ### END_TX and END_RX -/

theorem issueStop_of_not_idle {s : State} (h : ¬ Idle s) : issueStop s = .next (faulted s .host .requestCollision) := by
  simp only [issueStop, State.issue_of_not_idle .host .stop h]
  rfl

/-- Phase 0 of END_TX, once TX has drained, is the STOP. -/
theorem exec_endTx_of_empty {s : State} (hhph : s.hph = .zero) (hempty : RingEmpty s.tx) : exec .endTx s = issueStop s := by
  simp only [exec, execEndTx, hhph]
  exact waitUntil_of_true s _ (s.tx.isEmpty_iff.2 hempty)

/-- Phase 0 of END_RX, once nothing is left to receive, is the STOP. -/
theorem exec_endRx_of_done {s : State} (hhph : s.hph = .zero) (hbtr : s.btr = 0) : exec .endRx s = issueStop s := by
  simp only [exec, execEndRx, hhph]
  exact waitUntil_of_true s _ (decide_eq_true hbtr)

theorem exec_endTx_of_stopped {s : State} (hhph : s.hph = .one) (hstopp : s.stopp = false) :
    exec .endTx s = .next (reported (s.status.setWidth 16) s) := by
  simp only [exec, execEndTx, hhph]
  exact waitUntil_of_true s _ (by rw [hstopp]; rfl)

theorem exec_endRx_of_stopped {s : State} (hhph : s.hph = .one) (hstopp : s.stopp = false) :
    exec .endRx s = .next (completed s) := by
  simp only [exec, execEndRx, hhph]
  exact waitUntil_of_true s _ (by rw [hstopp]; rfl)

/-- Settles O30: the two waits by the guard, and what each phase does once it holds. -/
theorem endTxStopsThenReportsStatus : Obligations.EndTxStopsThenReportsStatus := by
  unfold Obligations.EndTxStopsThenReportsStatus
  intro s
  exact ⟨fun hhph hwait => exec_of_guard_false nofun ((hostGuard_endTx_false s).2 (.inl ⟨hhph, hwait⟩)),
    fun hhph hempty hidle => (exec_endTx_of_empty hhph hempty).trans (issueStop_of_idle hidle),
    fun hhph hempty hbusy => (exec_endTx_of_empty hhph hempty).trans (issueStop_of_not_idle hbusy),
    fun hhph hstopp => exec_of_guard_false nofun ((hostGuard_endTx_false s).2 (.inr ⟨hhph, hstopp⟩)),
    exec_endTx_of_stopped⟩

/-- Settles O31: as END_TX, with BTR in the place of TX and no result. -/
theorem endRxStopsThenCompletes : Obligations.EndRxStopsThenCompletes := by
  unfold Obligations.EndRxStopsThenCompletes
  intro s
  exact ⟨fun hhph hwait => exec_of_guard_false nofun ((hostGuard_endRx_false s).2 (.inl ⟨hhph, hwait⟩)),
    fun hhph hbtr hidle => (exec_endRx_of_done hhph hbtr).trans (issueStop_of_idle hidle),
    fun hhph hbtr hbusy => (exec_endRx_of_done hhph hbtr).trans (issueStop_of_not_idle hbusy),
    fun hhph hstopp => exec_of_guard_false nofun ((hostGuard_endRx_false s).2 (.inr ⟨hhph, hstopp⟩)),
    exec_endRx_of_stopped⟩

/-! ### Runs that end in a STOP -/

/-- HOST's step at a word of the program that decodes to `i`. -/
theorem stepBy_host_of_decode {s : State} {w : Word} {i : Instr} (hf : s.fault = none)
    (hw : s.params.program[s.hpc]? = some w) (hi : decodeCommand w = i) : stepBy .host s = exec i s :=
  hi ▸ stepBy_host hf hw

/-- The state between the engine's completion of a STOP and the second HOST step. -/
def State.stopDone (s : State) : State := { s with trace := s.trace ++ [⟨.host, .stop, s.data⟩], hph := .one }

theorem engineStop_stopIssued {s : State} (h : s.stopp = false) : (stopIssued s).engineStop = s.stopDone := by
  simp only [State.engineStop, stopIssued, State.stopDone, ← h]

/-- A command that issues a STOP in phase 0 and does not wait in phase 1, around ENG's completion of the STOP. -/
theorem runMoves_stop {s t : State} {w : Word} {i : Instr} (hf : s.fault = none) (hidle : Idle s)
    (hw : s.params.program[s.hpc]? = some w) (hi : decodeCommand w = i) (hzero : exec i s = issueStop s)
    (hone : exec i s.stopDone = .next t) : runMoves [.host, .engStop, .host] s = .next t := by
  have hissue : stepBy .host s = .next (stopIssued s) := by
    rw [stepBy_host_of_decode hf hw hi, hzero, issueStop_of_idle hidle]
  have hstop : stepBy .engStop (stopIssued s) = .next s.stopDone := by
    rw [stepBy_engStop (s := stopIssued s) hf rfl, engineStop_stopIssued hidle.2.2]
  have hdone : stepBy .host s.stopDone = .next t := by
    rw [stepBy_host_of_decode (s := s.stopDone) hf hw hi, hone]
  rw [runMoves_cons hissue, runMoves_cons hstop, runMoves_cons hdone, runMoves]

/-- Settles O32: END_TX with TX drained, and its report once the STOP is complete. -/
theorem endTxCompletesWithOneStop : Obligations.EndTxCompletesWithOneStop := by
  unfold Obligations.EndTxCompletesWithOneStop
  intro s hf hidle hempty hhph hw
  exact runMoves_stop hf hidle hw decodeCommand_endTx (exec_endTx_of_empty hhph hempty)
    (exec_endTx_of_stopped rfl hidle.2.2)

end Sys2Proof.Machine
end

section
/-!
PROOFS. What a step leaves behind (10_state.md R30, R32, R33, 20_memory.md R37, 43_sequencer.md R91, 60_exceptions.md R112,
70_reset_and_hazards.md R129): SEQ's one request, the faults of each agent, what grows and where, and which slot is stored to.
-/

namespace Sys2Proof.Machine

open Sys2Proof Sys2Proof.Spec

/-! ### SEQ's step at an event -/

/-- With an event pending SEQ does handle it. -/
theorem stepBy_seq_next {s t : State} (hf : s.fault = none) (hint : s.int = true) (h : stepBy .seq s = .next t) :
    SeqStep s (classify s.params.statusMap s.hwstat) s.hwstat t :=
  exec_seqStep ((stepBy_seq hf hint).symm.trans h)

/-- What every step of SEQ that raises no fault has done: entered the event `c` and issued one request, with the DATA of
that moment. -/
structure Handled (c : Byte) (s t : State) : Prop where
  status  : t.status = c
  int     : t.int = false
  request : ∃ a d, t.trace = s.trace ++ [⟨.seq, a, d⟩] ∧ t.data = d ∧ t.req = reqAfter a

theorem SeqStep.handled {s t : State} {cls : EventClass} {c : Byte} (h : SeqStep s cls c t) (hf : t.fault = none) :
    Handled c s t := by
  cases h with
  | collides | underflows | overflows => exact nomatch hf
  | starts a d | sent _ a d => exact ⟨rfl, rfl, a, d, rfl, rfl, a.leavesReq_eq_reqAfter⟩
  | stores => exact ⟨rfl, rfl, _, _, rfl, rfl, Action.leavesReq_eq_reqAfter _⟩
  | discards => exact ⟨rfl, rfl, .release, _, rfl, rfl, rfl⟩
  | clears => exact ⟨rfl, rfl, .clear, _, rfl, rfl, rfl⟩

/-- Settles O47: `Handled`, for the step SEQ makes at a pending event. -/
theorem seqStepIssuesExactlyOneRequest : Obligations.SeqStepIssuesExactlyOneRequest := by
  unfold Obligations.SeqStepIssuesExactlyOneRequest
  intro s t hf hint hstep htf
  obtain ⟨hstatus, hclear, hrequest⟩ := (stepBy_seq_next hf hint hstep).handled htf
  exact ⟨hstatus, hclear, hrequest⟩

/-- The request of a TX just emptied, with nothing to receive. -/
theorem nextRequest_of_drained {s : State} (hempty : RingEmpty s.tx) (hbtr : s.btr = 0) :
    s.nextRequest = .release ∧ s.nextData = s.data := by
  simp [State.nextRequest, State.nextData, s.tx.isEmpty_iff.2 hempty, hbtr]

/-- Settles O48: only a row that consumes the byte sent can empty TX, and what it then issues is RELEASE. -/
theorem drainingTxReleasesTheEngine : Obligations.DrainingTxReleasesTheEngine := by
  unfold Obligations.DrainingTxReleasesTheEngine
  intro s t hinv hf hempty hbtr hstep hdrained
  cases hint : s.int with
  | false =>
    cases (stepBy_seq_of_no_event hf hint).symm.trans hstep
    exact absurd hdrained hempty
  | true =>
    cases stepBy_seq_next hf hint hstep with
    | sent n a d _ _ _ hn _ _ _ ha hd =>
      have hzero : n = 0 := by
        rw [hn, hbtr, ite_self]
      obtain ⟨hrelease, hdata⟩ := nextRequest_of_drained (s := { s with tx := s.txPopped, btr := n }) hdrained hzero
      rw [ha, hd, hrelease, hdata]
      exact ⟨rfl, rfl, rfl⟩
    | collides | underflows | overflows | starts | stores | discards | clears => exact absurd hdrained hempty

/-! ### The faults of each agent -/

theorem HostStep.fault_kind {s t : State} {i : Instr} {r : FaultRecord} (h : HostStep s i t) (hf : s.fault = none)
    (hr : t.fault = some r) : r.kind = .requestCollision ∨ r.kind = .btrOverflow ∨ r.kind = .illegalCommand := by
  cases h with
  | collides =>
    cases hr
    exact .inl rfl
  | overflows =>
    cases hr
    exact .inr (.inl rfl)
  | illegal =>
    cases hr
    exact .inr (.inr rfl)
  | _ => exact nomatch hf.symm.trans hr

/-- A pending event leaves no request and no STOP for SEQ's request to collide with. -/
theorem SeqStep.fault_kind {s t : State} {cls : EventClass} {c : Byte} {r : FaultRecord} (h : SeqStep s cls c t)
    (hinv : s.Inv) (hint : s.int = true) (hf : s.fault = none) (hr : t.fault = some r) :
    r.kind = .rbOverflow ∨ r.kind = .rbUnderflow := by
  cases h with
  | collides hbusy =>
    obtain ⟨hreq, hstopp⟩ := hinv.free_of_int hint
    exact hbusy.elim (absurd hreq) fun hstop => nomatch hstopp.symm.trans hstop
  | underflows =>
    cases hr
    exact .inr rfl
  | overflows =>
    cases hr
    exact .inl rfl
  | _ => exact nomatch hf.symm.trans hr

/-- Settles O55: the raises of HOST and of SEQ; ENG leaves FAULT alone. -/
theorem eachAgentRaisesOnlyItsFaults : Obligations.EachAgentRaisesOnlyItsFaults := by
  unfold Obligations.EachAgentRaisesOnlyItsFaults
  intro mv s t r hinv hf hstep hr
  cases (stepBy_next hstep).2 with
  | host _ _ _ _ _ hs => exact ⟨fun _ => hs.fault_kind hf hr, nofun, .inl rfl⟩
  | seq _ _ hint _ hs => exact ⟨nofun, fun _ => hs.fault_kind hinv hint hf hr, .inr rfl⟩
  | none | answer | drop | stop => exact nomatch hf.symm.trans hr

/-! ### HPC, OUT and TRACE -/

/-- What a step may do to HPC, OUT and TRACE (R30, R32, R33): a HOST step that advances HPC ends its command and may report
one result, and a step records at most one request. -/
structure Grows (s t : State) : Prop where
  hpc   : t.hpc = s.hpc ∨ (t.hpc = s.hpc + 1 ∧ t.hph = .zero)
  out   : t.out = s.out ∨ ∃ v, t.out = s.out ++ [v] ∧ t.hpc = s.hpc + 1
  trace : t.trace = s.trace ∨ ∃ e, t.trace = s.trace ++ [e]

theorem Grows.refl (s : State) : Grows s s := ⟨.inl rfl, .inl rfl, .inl rfl⟩

theorem HostStep.grows {s t : State} {i : Instr} (h : HostStep s i t) : Grows s t := by
  cases h with
  | waits | collides | overflows | illegal => exact { Grows.refl s with }
  | begins | kicks => exact ⟨.inr ⟨rfl, rfl⟩, .inl rfl, .inr ⟨_, rfl⟩⟩
  | queues | endsRx | requests => exact ⟨.inr ⟨rfl, rfl⟩, .inl rfl, .inl rfl⟩
  | stops => exact ⟨.inl rfl, .inl rfl, .inr ⟨_, rfl⟩⟩
  | endsTx | reports | takes => exact ⟨.inr ⟨rfl, rfl⟩, .inr ⟨_, rfl, rfl⟩, .inl rfl⟩

theorem SeqStep.trace_grows {s t : State} {cls : EventClass} {c : Byte} (h : SeqStep s cls c t) :
    t.trace = s.trace ∨ ∃ e, t.trace = s.trace ++ [e] := by
  cases h with
  | collides | underflows | overflows => exact .inl rfl
  | starts | sent | stores | discards | clears => exact .inr ⟨_, rfl⟩

/-- Settles O57: HOST by its steps; SEQ and ENG leave HPC and OUT alone. -/
theorem hostPositionAdvancesByOne : Obligations.HostPositionAdvancesByOne := by
  unfold Obligations.HostPositionAdvancesByOne
  intro mv s t hstep
  cases (stepBy_next hstep).2 with
  | host _ _ _ _ _ hs =>
    obtain ⟨hhpc, hout, htrace⟩ := hs.grows
    exact ⟨hhpc.imp id fun h => ⟨rfl, h⟩, hout, htrace⟩
  | seq _ _ _ _ hs => exact ⟨.inl hs.seqWrites.hpc, .inl hs.seqWrites.out, hs.trace_grows⟩
  | none | answer | drop | stop => exact ⟨.inl rfl, .inl rfl, .inl rfl⟩

/-! ### Storage -/

/-- `m'` is `m` but for the slot `i`. -/
def Memory.SameBut (i : Nat) (m m' : Memory) : Prop := ∀ k, k ≠ i → m'.read k = m.read k

theorem Memory.SameBut.refl (i : Nat) (m : Memory) : m.SameBut i m := fun _ _ => rfl

theorem Memory.sameBut_write (m : Memory) (i : Nat) (b : Byte) : m.SameBut i (m.write i b) :=
  fun _ hk => m.read_write_other b hk

/-- HOST stores in TX at its head alone; in RX it stores nothing (`HostWrites`). -/
theorem HostStep.tx_sameBut {s t : State} {i : Instr} (h : HostStep s i t) : s.tx.buf.SameBut s.tx.head t.tx.buf := by
  cases h with
  | begins | queues | kicks => exact Memory.sameBut_write _ _ _
  | _ => exact .refl _ _

/-- READ alone takes from RX. -/
theorem HostStep.rx_eq {s t : State} {i : Instr} (h : HostStep s i t) (hi : i ≠ .read) : t.rx = s.rx := by
  cases h with
  | takes => exact absurd rfl hi
  | _ => rfl

theorem HostStep.tx_eq {s t : State} {i : Instr} (h : HostStep s i t) (hi : StoresNothing i) : t.tx = s.tx := by
  cases h with
  | begins _ _ hbegin => obtain ⟨a, rfl⟩ | ⟨a, rfl⟩ := hbegin <;> simp [StoresNothing] at hi
  | queues | kicks => simp [StoresNothing] at hi
  | _ => rfl

theorem isCommandOrIllegal_of_storesNothing {i : Instr} (h : StoresNothing i) : i.isCommandOrIllegal = true := by
  obtain rfl | rfl | ⟨n, rfl⟩ | rfl | rfl | rfl | rfl | ⟨w, rfl⟩ := h <;> rfl

/-- SEQ stores in RX at its head alone. -/
theorem SeqStep.rx_sameBut {s t : State} {cls : EventClass} {c : Byte} (h : SeqStep s cls c t) :
    s.rx.buf.SameBut s.rx.head t.rx.buf := by
  cases h with
  | stores => exact Memory.sameBut_write _ _ _
  | _ => exact .refl _ _

theorem SeqStep.rx_eq {s t : State} {cls : EventClass} {c : Byte} (h : SeqStep s cls c t) (hack : cls ≠ .drxAck)
    (hnack : cls ≠ .drxNack) : t.rx = s.rx := by
  cases h with
  | stores hcls => exact absurd hcls (not_or.2 ⟨hack, hnack⟩)
  | _ => rfl

/-- Settles O58: the storing commands, the others, and the events. -/
theorem storageChangesOnlyAtTheHead : Obligations.StorageChangesOnlyAtTheHead := by
  unfold Obligations.StorageChangesOnlyAtTheHead
  refine ⟨fun i s t hi h => ?stores, fun i s t hi h => ?others, fun m c s t h => ?events⟩
  case stores =>
    have hi : i.isCommandOrIllegal = true ∧ i ≠ .read := by
      obtain ⟨_, rfl⟩ | ⟨_, rfl⟩ | ⟨_, rfl⟩ := hi <;> exact ⟨rfl, nofun⟩
    have hs := exec_hostStep hi.1 h
    exact ⟨hs.rx_eq hi.2, hs.tx_sameBut⟩
  case others =>
    have hs := exec_hostStep (isCommandOrIllegal_of_storesNothing hi) h
    exact ⟨hs.tx_eq hi, hs.hostWrites.rx.buf⟩
  case events =>
    have hs := exec_seqStep h
    exact ⟨hs.seqWrites.tx.buf, hs.rx_sameBut, hs.rx_eq⟩

end Sys2Proof.Machine
end

section
/-!
PROOFS. Hazards (70_reset_and_hazards.md R126, R130, R134) and the conformant engine (44_bus_engine.md R109): runs that no
move takes any further, where an event or a request comes from, and what a conformant engine answers.
-/

namespace Sys2Proof

/-! ### The words of a program as R61 writes them -/

theorem decodeCommand_requestBytes_word (n : Byte) : decodeCommand (0x5000 ||| n.setWidth 16) = .requestBytes n :=
  decodeCommand_requestBytes n

theorem decodeCommand_beginTx_word (a : Addr) : decodeCommand (0x1000 ||| a.setWidth 16) = .beginTx a :=
  commandWord_setWidth 0x1 a ▸ decodeCommand_beginTx a

theorem decodeCommand_beginRx_word (a : Addr) : decodeCommand (0x4000 ||| a.setWidth 16) = .beginRx a :=
  commandWord_setWidth 0x4 a ▸ decodeCommand_beginRx a

end Sys2Proof

namespace Sys2Proof.Machine

open Sys2Proof Sys2Proof.Spec

/-! ### States in which no agent has a step -/

/-- With nothing outstanding, HOST alone can have a step. -/
theorem State.enabled_of_idle {s : State} (h : Idle s) {mv : Move} (hmv : mv ≠ .host) : s.enabled mv = false := by
  obtain ⟨hreq, hint, hstopp⟩ := h
  cases mv with
  | host => exact absurd rfl hmv
  | _ => simp [State.enabled, State.answerEnabled, State.dropEnabled, hreq, hint, hstopp]

theorem State.hostEnabled_of_guard_false {s : State} {w : Word} {i : Instr} (hw : s.params.program[s.hpc]? = some w)
    (hi : decodeCommand w = i) (hguard : hostGuard i s = false) : s.hostEnabled = false := by
  have hfetch : s.fetchCommand = some w := hw
  simp only [State.hostEnabled, hfetch, hi, hguard]

/-- Nothing outstanding and HOST waiting: no agent has a step. -/
theorem State.enabled_of_idle_of_waiting {s : State} (hidle : Idle s) {w : Word} {i : Instr}
    (hw : s.params.program[s.hpc]? = some w) (hi : decodeCommand w = i) (hguard : hostGuard i s = false) (mv : Move) :
    s.enabled mv = false := by
  by_cases hmv : mv = .host
  · subst hmv
    simp [State.enabled, State.hostEnabled_of_guard_false hw hi hguard]
  · exact State.enabled_of_idle hidle hmv

theorem State.final_of_command {s : State} {w : Word} (hw : s.params.program[s.hpc]? = some w) : s.final = false := by
  obtain ⟨hlt, -⟩ := List.getElem?_eq_some_iff.1 hw
  exact Bool.eq_false_iff.2 fun h => Nat.ne_of_lt hlt (s.final_iff.1 h).2.1

/-! ### A late REQUEST_BYTES (R130) -/

theorem byte_le_btrMax {p : Params} (h : 8 ≤ p.btrWidth) (n : Byte) : n.toNat ≤ btrMax p := by
  have hpow : 2 ^ 8 ≤ 2 ^ p.btrWidth := Nat.pow_le_pow_right (by decide) h
  have hn : n.toNat < 2 ^ 8 := n.isLt
  exact Nat.le_sub_one_of_lt (Nat.lt_of_lt_of_le hn hpow)

/-- Settles O52: REQUEST_BYTES raises BTR and no more, so END_RX waits in a state in which nothing is outstanding. -/
theorem lateRequestStartsNothing : Obligations.LateRequestStartsNothing := by
  unfold Obligations.LateRequestStartsNothing
  intro n s hf hidle _ hbtr hn hwidth hw hw'
  have hguard : hostGuard .endRx (completed { s with btr := n.toNat }) = false :=
    (hostGuard_endRx_false _).2 (.inl ⟨rfl, fun h => hn (BitVec.eq_of_toNat_eq h)⟩)
  have hnone := State.enabled_of_idle_of_waiting (s := completed { s with btr := n.toNat }) hidle hw' decodeCommand_endRx
    hguard
  refine ⟨?_, (State.stuck_iff _).2 ⟨hnone, State.final_of_command (s := completed { s with btr := n.toNat }) hw'⟩,
    fun mvs => runMoves_of_not_enabled (s := completed { s with btr := n.toNat }) hf fun mv _ => hnone mv⟩
  have hsum : s.btr + n.toNat = n.toNat := by omega
  rw [stepBy_host_of_decode hf hw (decodeCommand_requestBytes_word n),
    exec_requestBytes_of_le (by rw [hsum]; exact byte_le_btrMax hwidth n), hsum]

/-! ### An EV_OTHER that nothing follows (R134) -/

theorem stepBy_seq_of_classify {s : State} {cls : EventClass} (hf : s.fault = none) (hint : s.int = true)
    (hcls : classify s.params.statusMap s.hwstat = cls) : stepBy .seq s = exec (eventRow cls s.hwstat) s := by
  rw [stepBy_seq hf hint, decodeEvent_of_classify hcls]

/-- The state once SEQ has handled the EV_OTHER and ENG has dropped the CLEAR. -/
def State.cleared (s : State) : State :=
  { s with status := s.hwstat, int := false, trace := s.trace ++ [⟨.seq, .clear, s.data⟩] }

theorem runMoves_seq_engDrop_of_other {s : State} (hinv : s.Inv) (hf : s.fault = none) (hint : s.int = true)
    (hcls : classify s.params.statusMap s.hwstat = .other) (mvs : List Move) :
    runMoves (.seq :: .engDrop :: mvs) s = runMoves mvs s.cleared := by
  obtain ⟨hreq, hstopp⟩ := hinv.free_of_int hint
  have hseq := (stepBy_seq_of_classify hf hint hcls).trans ((otherStatusOnlyClears s.hwstat s).1 hreq hstopp)
  rw [runMoves_cons hseq, runMoves_cons (stepBy_engDrop (by exact hf) rfl), State.cleared, hreq]
  rfl

/-- A command that waits on TX or on BTR, in phase 0 (R134). -/
theorem waiting_command {s : State} (hhph : s.hph = .zero)
    (h : (s.params.program[s.hpc]? = some 0x3000 ∧ ¬ RingEmpty s.tx) ∨
      (∃ a : Addr, (s.params.program[s.hpc]? = some (0x1000 ||| a.setWidth 16) ∨
        s.params.program[s.hpc]? = some (0x4000 ||| a.setWidth 16)) ∧ ¬ RingEmpty s.tx) ∨
      (s.params.program[s.hpc]? = some 0x8000 ∧ s.btr ≠ 0)) :
    ∃ w, s.params.program[s.hpc]? = some w ∧ hostGuard (decodeCommand w) s = false := by
  obtain ⟨hw, htx⟩ | ⟨a, hw | hw, htx⟩ | ⟨hw, hbtr⟩ := h <;> refine ⟨_, hw, ?_⟩
  · exact (hostGuard_endTx_false s).2 (.inl ⟨hhph, htx⟩)
  · rw [decodeCommand_beginTx_word]
    exact s.tx.isEmpty_false_iff.2 htx
  · rw [decodeCommand_beginRx_word]
    exact s.tx.isEmpty_false_iff.2 htx
  · exact (hostGuard_endRx_false s).2 (.inl ⟨hhph, hbtr⟩)

/-- Settles O53: SEQ clears, ENG drops the CLEAR, and the waiting command then waits with nothing outstanding. -/
theorem otherStatusStallsTheTransaction : Obligations.OtherStatusStallsTheTransaction := by
  unfold Obligations.OtherStatusStallsTheTransaction
  intro mvs s hinv hf hint hhph hcls hwait
  obtain ⟨hreq, hstopp⟩ := hinv.free_of_int hint
  obtain ⟨w, hw, hguard⟩ := waiting_command (s := s.cleared) hhph hwait
  have hidle : Idle s.cleared := ⟨hreq, rfl, hstopp⟩
  rw [runMoves_seq_engDrop_of_other hinv hf hint hcls]
  exact runMoves_of_not_enabled (s := s.cleared) hf fun mv _ => State.enabled_of_idle_of_waiting hidle hw rfl hguard mv

/-! ### Where an event comes from -/

theorem MoveStep.answer_of_int {mv : Move} {s t : State} (h : MoveStep s mv t) (hs : s.int = false) (ht : t.int = true) :
    ∃ c d, mv = .engAnswer c d := by
  cases h with
  | answer c d => exact ⟨c, d, rfl⟩
  | host _ _ _ _ _ hh => exact nomatch ht.symm.trans (hh.hostWrites.int.trans hs)
  | seq _ _ hint => exact nomatch hs.symm.trans hint
  | none | drop | stop => exact nomatch ht.symm.trans hs

/-! ### Where a request comes from -/

/-- Agent `g` has made a request: TRACE tells of it with the DATA of that moment, and REQ or STOPP holds it. -/
def Requests (g : Agent) (s t : State) : Prop :=
  ∃ e, t.trace = s.trace ++ [e] ∧ e.agent = g ∧ e.data = t.data ∧ t.req = reqAfter e.action ∧
    (t.stopp = true ↔ e.action = .stop)

theorem HostStep.requests_or_eq {s t : State} {i : Instr} (h : HostStep s i t) (hreq : s.req = .none)
    (hstopp : s.stopp = false) : (t.req = s.req ∧ t.stopp = s.stopp) ∨ Requests .host s t := by
  cases h with
  | begins | kicks => exact .inr ⟨_, rfl, rfl, rfl, rfl, by simp [hstopp]⟩
  | stops => exact .inr ⟨_, rfl, rfl, rfl, hreq, by simp⟩
  | _ => exact .inl ⟨rfl, rfl⟩

theorem SeqStep.requests_or_eq {s t : State} {cls : EventClass} {c : Byte} (h : SeqStep s cls c t) :
    (t.req = s.req ∧ t.stopp = s.stopp) ∨ Requests .seq s t := by
  cases h with
  | collides | underflows | overflows => exact .inl ⟨rfl, rfl⟩
  | starts a _ _ _ _ ha | sent _ a _ _ _ _ _ _ _ _ ha =>
    have hne : a ≠ .stop := ha ▸ State.nextRequest_ne_stop _
    exact .inr ⟨_, rfl, rfl, rfl, a.leavesReq_eq_reqAfter, by simp [hne]⟩
  | stores => exact .inr ⟨_, rfl, rfl, rfl, Action.leavesReq_eq_reqAfter _, by simp [acknowledgement_ne_stop]⟩
  | discards | clears => exact .inr ⟨_, rfl, rfl, rfl, rfl, by simp⟩

/-- ENG makes no request, so one that was not there is HOST's or SEQ's. -/
theorem MoveStep.requests_of_outstanding {mv : Move} {s t : State} (h : MoveStep s mv t) (hreq : s.req = .none)
    (hstopp : s.stopp = false) (ht : t.req ≠ .none ∨ t.stopp = true) :
    (mv = .host ∧ Requests .host s t) ∨ (mv = .seq ∧ Requests .seq s t) := by
  have hsame : ¬ (t.req = s.req ∧ t.stopp = s.stopp) := fun ⟨hr, hp⟩ =>
    ht.elim (fun hne => hne (hr.trans hreq)) fun hstop => nomatch hstop.symm.trans (hp.trans hstopp)
  cases h with
  | host _ _ _ _ _ hs => exact .inl ⟨rfl, (hs.requests_or_eq hreq hstopp).resolve_left hsame⟩
  | seq _ _ _ _ hs => exact .inr ⟨rfl, hs.requests_or_eq.resolve_left hsame⟩
  | none => exact absurd ⟨rfl, rfl⟩ hsame
  | answer _ _ hne => exact absurd hreq hne
  | drop hclear => exact nomatch hreq.symm.trans hclear
  | stop hstop => exact nomatch hstopp.symm.trans hstop

/-! ### The conformant engine -/

/-- A conformant run stays conformant after its first move, from some mode. -/
theorem conformantRun_tail {m : EngineMode} {mv : Move} {rest : List Move} {s t : State} (hstep : stepBy mv s = .next t)
    (h : conformantRun m s (mv :: rest) = true) : ∃ m', conformantRun m' t rest = true := by
  simp only [conformantRun, hstep] at h
  cases mv with
  | engAnswer c d =>
    simp only at h
    split at h
    · split at h
      · exact ⟨_, h⟩
      · exact nomatch h
    · exact ⟨_, h⟩
  | host | seq | engDrop | engStop => exact ⟨_, h⟩

theorem conformantRun_host {m : EngineMode} {rest : List Move} {s t : State} (hstep : stepBy .host s = .next t) :
    conformantRun m s (.host :: rest) = conformantRun m t rest := by
  simp only [conformantRun, hstep]

/-- An answer in a conformant run is one the table of R109 admits. -/
theorem conformantNext_of_conformantRun {m : EngineMode} {c d : Byte} {rest : List Move} {s : State} (hf : s.fault = none)
    (hanswer : s.answerEnabled = true) (h : conformantRun m s (.engAnswer c d :: rest) = true) :
    ∃ m', conformantNext s.req m (s.data.getLsbD 0) (classify s.params.statusMap c) = some m' := by
  simp only [conformantRun, stepBy_engAnswer c d hf hanswer, hanswer, if_true] at h
  split at h
  · exact ⟨_, ‹_›⟩
  · exact nomatch h

/-- The table of R109 has no row for EV_OTHER. -/
theorem conformantNext_other (q : Req) (m : EngineMode) (bit0 : Bool) : conformantNext q m bit0 .other = none := by
  cases q <;> cases m <;> rfl

/-- The first answer to a START from the mode IDLE is an EV_START. -/
theorem start_of_conformantNext {bit0 : Bool} {cls : EventClass} {m : EngineMode}
    (h : conformantNext .start .idle bit0 cls = some m) : cls = .start := by
  cases cls with
  | start => rfl
  | _ => exact nomatch h

/-- No EV_OTHER is pending. -/
def NoOther (s : State) : Prop := s.int = true → classify s.params.statusMap s.hwstat ≠ .other

/-- Only an answer of ENG can bring a new event. -/
theorem MoveStep.noOther {mv : Move} {s t : State} (h : MoveStep s mv t) (hs : NoOther s)
    (hmv : ∀ c d, mv = .engAnswer c d → s.answerEnabled = true → classify s.params.statusMap c ≠ .other) : NoOther t := by
  cases h with
  | none | drop | stop => exact hs
  | host _ _ _ _ _ hh =>
    obtain ⟨hparams, -, -, -, -, hhwstat, hint⟩ := hh.hostWrites
    rwa [NoOther, hparams, hhwstat, hint]
  | seq _ _ hint _ hq =>
    obtain ⟨hparams, -, -, -, hhwstat, -⟩ := hq.seqWrites
    rw [NoOther, hparams, hhwstat]
    exact fun _ => hs hint
  | answer c d hreq hint => exact fun _ => hmv c d rfl (s.answerEnabled_iff.2 ⟨hreq, hint⟩)

theorem noOther_of_conformantRun {mvs : List Move} {m : EngineMode} {s t : State} (h : conformantRun m s mvs = true)
    (hrun : runMoves mvs s = .next t) (hs : NoOther s) : NoOther t := by
  induction mvs generalizing m s with
  | nil =>
    cases hrun
    exact hs
  | cons mv mvs ih =>
    rw [runMoves] at hrun
    split at hrun
    case h_1 u hstep =>
      obtain ⟨hf, hm⟩ := stepBy_next hstep
      obtain ⟨m', hrest⟩ := conformantRun_tail hstep h
      refine ih hrest hrun (hm.noOther hs ?_)
      rintro c d rfl hanswer hother
      obtain ⟨m'', hnext⟩ := conformantNext_of_conformantRun hf hanswer h
      rw [hother, conformantNext_other] at hnext
      exact nomatch hnext
    all_goals exact nomatch hrun

/-- Settles O59: `NoOther` along the run. -/
theorem conformantEngineNeverRaisesOther : Obligations.ConformantEngineNeverRaisesOther := by
  unfold Obligations.ConformantEngineNeverRaisesOther
  exact fun m mvs s t h hrun hs => noOther_of_conformantRun h hrun hs

/-! ### From reset (R126) -/

/-- What the first steps read of a reset state, whatever its parameters. -/
structure State.ResetFacts (s : State) : Prop where
  hpc   : s.hpc = 0
  hph   : s.hph = .zero
  fault : s.fault = none
  idle  : Idle s
  tx    : RingEmpty s.tx

theorem State.atReset.facts {s : State} (h : s.atReset) : s.ResetFacts := by
  rw [State.atReset] at h
  rw [h]
  exact ⟨rfl, rfl, rfl, ⟨rfl, rfl, rfl⟩, rfl, rfl⟩

/-- The first begin command asks for a START, which ENG may answer. -/
theorem State.ResetFacts.begin {s : State} (h : s.ResetFacts) {w : Word} {a : Addr}
    (hw : s.params.program[0]? = some w) (hi : decodeCommand w = .beginTx a ∨ decodeCommand w = .beginRx a) :
    ∃ b, stepBy .host s = .next (begun b s) := by
  have hfetch : s.params.program[s.hpc]? = some w := h.hpc ▸ hw
  obtain hi | hi := hi <;> rw [stepBy_host_of_decode h.fault hfetch hi]
  · exact ⟨_, (beginTransaction_cases a .write s).2.2 h.tx h.idle⟩
  · exact ⟨_, (beginTransaction_cases a .read s).2.2 h.tx h.idle⟩

/-- Settles O60: the reset state; where events and requests come from; the first answer of a conformant engine. -/
theorem resetLeavesOnlyHostAStep : Obligations.ResetLeavesOnlyHostAStep := by
  unfold Obligations.ResetLeavesOnlyHostAStep
  refine ⟨fun s hs => ?reset, fun mv s t hstep => ?origin, fun s w a c d rest hw hi hrun => ?conformant⟩
  case reset =>
    obtain ⟨hhpc, hhph, hf, hidle, -⟩ := hs.facts
    have hfetch : s.fetchCommand = s.params.program[0]? := hhpc ▸ rfl
    exact ⟨hhpc, hhph, fun w hw => stepBy_host hf (hfetch.trans hw), fun mv => State.enabled_of_idle hidle⟩
  case origin =>
    obtain ⟨-, hm⟩ := stepBy_next hstep
    refine ⟨hm.answer_of_int, fun hreq hstopp ht => ?_⟩
    obtain ⟨rfl, e, htrace, hrest⟩ | ⟨rfl, e, htrace, hrest⟩ := hm.requests_of_outstanding hreq hstopp ht
    · exact ⟨e, htrace, .inl ⟨rfl, hrest.1⟩, hrest.2⟩
    · exact ⟨e, htrace, .inr ⟨rfl, hrest.1⟩, hrest.2⟩
  case conformant =>
    obtain ⟨hs, hrun⟩ := hrun
    obtain ⟨b, hbegin⟩ := hs.facts.begin hw hi
    rw [conformantRun_host hbegin] at hrun
    have hint : s.int = false := hs.facts.idle.2.1
    obtain ⟨m, hnext⟩ := conformantNext_of_conformantRun (s := begun b s) hs.facts.fault
      ((begun b s).answerEnabled_iff.2 ⟨nofun, hint⟩) hrun
    exact start_of_conformantNext hnext

end Sys2Proof.Machine
end

section
/-!
PROOFS. Transactions (43_sequencer.md R92 to R98, R100, 42_host_commands.md R89): runs in which ENG answers each request and
SEQ handles each event, as inductions over the answers. A write phase keeps `Sending`, a reception keeps `Receiving`.
-/

namespace Sys2Proof.Machine

open Sys2Proof Sys2Proof.Spec

/-! ### A request, its answer, and the event that it raises -/

/-- A request stands in REQ and nothing else is outstanding: it is ENG's turn. -/
structure State.Asked (s : State) : Prop where
  fault : s.fault = none
  req   : s.req ≠ .none
  int   : s.int = false
  stopp : s.stopp = false

/-- An event is pending and nothing else is outstanding: it is SEQ's turn. -/
structure State.Pending (s : State) : Prop where
  fault : s.fault = none
  int   : s.int = true
  req   : s.req = .none
  stopp : s.stopp = false

theorem State.Inv.pending {s : State} (h : s.Inv) (hf : s.fault = none) (hint : s.int = true) : s.Pending :=
  ⟨hf, hint, (h.free_of_int hint).1, (h.free_of_int hint).2⟩

section
variable {s : State} (h : s.Asked)
include h

theorem State.Asked.stepBy_engAnswer (c d : Byte) : stepBy (.engAnswer c d) s = .next (s.engineAnswer c d) :=
  Machine.stepBy_engAnswer c d h.fault (s.answerEnabled_iff.2 ⟨h.req, h.int⟩)

theorem State.Asked.pending (c d : Byte) : (s.engineAnswer c d).Pending := ⟨h.fault, rfl, rfl, h.stopp⟩

/-- An answer and the step of SEQ that handles it. -/
theorem State.Asked.runMoves_answered_cons {t : State} {e : Byte × Byte}
    (hseq : stepBy .seq (s.engineAnswer e.1 e.2) = .next t) (es : List (Byte × Byte)) :
    runMoves (answered (e :: es)) s = runMoves (answered es) t :=
  (runMoves_cons (h.stepBy_engAnswer e.1 e.2) _).trans (runMoves_cons hseq _)

end

/-- DATA after an answer that delivers no byte. -/
theorem State.engineAnswer_data_of_not_received {s : State} {c d : Byte} {cls : EventClass}
    (hcls : classify s.params.statusMap c = cls) (h : isReceived cls = false) : (s.engineAnswer c d).data = s.data := by
  rw [State.engineAnswer_data, hcls, h]
  rfl

/-- DATA after an answer that delivers a byte. -/
theorem State.engineAnswer_data_of_received {s : State} {c d : Byte}
    (h : classify s.params.statusMap c = .drxAck ∨ classify s.params.statusMap c = .drxNack) :
    (s.engineAnswer c d).data = d := by
  rw [State.engineAnswer_data, (isReceived_iff _).2 h]
  rfl

/-! ### What SEQ does at each event -/

/-- The classes of `sentRow`: the byte sent leaves TX (R94, R95, R97). -/
def IsSent (cls : EventClass) : Prop :=
  cls = .slawAck ∨ cls = .slawNack ∨ cls = .dtxAck ∨ cls = .dtxNack ∨ cls = .slarAck

theorem IsSent.exec_eventRow {cls : EventClass} (h : IsSent cls) (c : Byte) (s : State) :
    exec (eventRow cls c) s = sentRow c s := by
  obtain rfl | rfl | rfl | rfl | rfl := h <;> rfl

theorem IsSent.not_received {cls : EventClass} (h : IsSent cls) : isReceived cls = false := by
  obtain rfl | rfl | rfl | rfl | rfl := h <;> rfl

section
variable {s : State} (h : s.Pending)
include h

theorem State.Pending.stepBy_seq_of_start
    (hcls : classify s.params.statusMap s.hwstat = .start ∨ classify s.params.statusMap s.hwstat = .repStart) :
    stepBy .seq s = .next (acted (s.enterEvent s.hwstat)) := by
  have hrow := (startRow_cases s.hwstat s).1 h.req h.stopp
  obtain hcls | hcls := hcls <;> exact (stepBy_seq_of_classify h.fault h.int hcls).trans hrow

theorem State.Pending.stepBy_seq_of_sent (hcls : IsSent (classify s.params.statusMap s.hwstat)) (htx : ¬ RingEmpty s.tx) :
    stepBy .seq s = .next (sent s.hwstat s.btr s) := by
  rw [stepBy_seq_of_classify h.fault h.int rfl, hcls.exec_eventRow]
  exact (sentRow_cases s.hwstat s).2.1 htx h.req h.stopp

theorem State.Pending.stepBy_seq_of_received
    (hcls : classify s.params.statusMap s.hwstat = .drxAck ∨ classify s.params.statusMap s.hwstat = .drxNack)
    (hrx : ¬ RingFull s.rx) : stepBy .seq s = .next (received s.hwstat s) := by
  have hrow := (receivedRow_cases s.hwstat s).2.1 (.inr hrx) h.req h.stopp
  obtain hcls | hcls := hcls <;> exact (stepBy_seq_of_classify h.fault h.int hcls).trans hrow

end

/-! ### A write phase -/

/-- The front byte of a ring by the bytes it holds. -/
theorem Ring.InRange.front_of_contents {w : Buffer} {c : Nat} {r : Ring} {b : Byte} {q : List Byte} (h : r.InRange c)
    (hq : r.contents w c = b :: q) : ¬ RingEmpty r ∧ r.slot w r.tail = b ∧ (Spec.popped c r).contents w c = q := by
  have hempty : ¬ RingEmpty r := fun he => nomatch hq.symm.trans ((h.contents_eq_nil_iff w).2 he)
  rw [h.contents_of_not_empty w hempty, List.cons.injEq] at hq
  exact ⟨hempty, hq⟩

/-- SEQ has loaded the front byte `b` of a TX that holds `q` behind it, and asked ENG to go on. -/
structure Sending (b : Byte) (q : List Byte) (s : State) : Prop where
  asked    : s.Asked
  tx       : s.tx.InRange s.params.capacity
  contents : s.tx.contents .tx s.params.capacity = b :: q
  data     : s.data = b
  btr      : s.btr = 0

/-- With a byte in TX, the next action loads it. -/
theorem sending_acted {s : State} {b : Byte} {q : List Byte} (hf : s.fault = none) (hidle : Idle s) (hbtr : s.btr = 0)
    (htx : s.tx.InRange s.params.capacity) (hq : s.tx.contents .tx s.params.capacity = b :: q) :
    Sending b q (acted s) ∧ (acted s).trace = s.trace ++ [⟨.seq, .cont, b⟩] := by
  obtain ⟨hempty, hfront, -⟩ := htx.front_of_contents hq
  rw [acted_of_not_empty hempty, hfront]
  exact ⟨⟨⟨hf, nofun, hidle.2.1, hidle.2.2⟩, htx, hq, rfl, hbtr⟩, rfl⟩

section
variable {s : State} {b : Byte} {q : List Byte} (h : Sending b q s) {e : Byte × Byte}
  (he : IsSent (classify s.params.statusMap e.1))
include h he

/-- SEQ's step at the answer to the byte `b`. -/
theorem Sending.stepBy_seq :
    stepBy .seq (s.engineAnswer e.1 e.2) = .next (sent e.1 0 (s.engineAnswer e.1 e.2)) := by
  have hstep := (h.asked.pending e.1 e.2).stepBy_seq_of_sent he (h.tx.front_of_contents h.contents).1
  rwa [State.engineAnswer_btr, h.btr] at hstep

/-- The byte the next one takes the place of was `b`. -/
theorem Sending.data_answered : (s.engineAnswer e.1 e.2).data = b :=
  (State.engineAnswer_data_of_not_received rfl he.not_received).trans h.data

end

/-- An answer to one byte loads the next. -/
theorem Sending.next {s : State} {b b' : Byte} {q : List Byte} (h : Sending b (b' :: q) s) {e : Byte × Byte} :
    Sending b' q (sent e.1 0 (s.engineAnswer e.1 e.2)) ∧
      (sent e.1 0 (s.engineAnswer e.1 e.2)).trace = s.trace ++ [⟨.seq, .cont, b'⟩] :=
  sending_acted (s := (s.engineAnswer e.1 e.2).afterByteSent e.1 0) h.asked.fault ⟨rfl, rfl, h.asked.stopp⟩ rfl h.tx.popped
    (h.tx.front_of_contents h.contents).2.2

/-- The end of a write phase: TX is empty and the bus released. -/
structure Released (s : State) : Prop where
  fault : s.fault = none
  tx    : RingEmpty s.tx
  idle  : Idle s

/-- An answer to the last byte releases the bus. -/
theorem Sending.release {s : State} {b : Byte} (h : Sending b [] s) {e : Byte × Byte}
    (he : IsSent (classify s.params.statusMap e.1)) :
    Released (sent e.1 0 (s.engineAnswer e.1 e.2)) ∧
      (sent e.1 0 (s.engineAnswer e.1 e.2)).trace = s.trace ++ [⟨.seq, .release, b⟩] := by
  have hempty : RingEmpty (sent e.1 0 (s.engineAnswer e.1 e.2)).tx :=
    (h.tx.popped.contents_eq_nil_iff .tx).1 (h.tx.front_of_contents h.contents).2.2
  rw [sent_zero_of_empty hempty, h.data_answered he]
  exact ⟨⟨h.asked.fault, hempty, rfl, rfl, h.asked.stopp⟩, rfl⟩

/-- One answer for each byte sends them all. -/
theorem Sending.run {q : List Byte} {b : Byte} {s : State} (h : Sending b q s) {es : List (Byte × Byte)}
    (hlength : es.length = q.length + 1) (hes : ∀ e ∈ es, IsSent (classify s.params.statusMap e.1)) :
    ∃ t, runMoves (answered es) s = .next t ∧ Released t ∧
      t.trace = s.trace ++ q.map (fun b => (⟨.seq, .cont, b⟩ : TraceEntry)) ++
        [⟨.seq, .release, (b :: q).getLast?.getD 0⟩] := by
  induction q generalizing b s es with
  | nil =>
    obtain ⟨e, rfl⟩ := List.length_eq_one_iff.1 hlength
    have he := hes e List.mem_cons_self
    obtain ⟨hreleased, htrace⟩ := h.release he
    exact ⟨_, h.asked.runMoves_answered_cons (h.stepBy_seq he) [], hreleased, by simp [htrace]⟩
  | cons b' q ih =>
    obtain ⟨e, es, rfl⟩ := List.exists_cons_of_length_eq_add_one hlength
    obtain ⟨hnext, htrace⟩ := h.next (e := e)
    obtain ⟨t, hrun, hreleased, htrace'⟩ :=
      ih hnext (Nat.add_right_cancel hlength) fun x hx => hes x (List.mem_cons_of_mem _ hx)
    refine ⟨t, (h.asked.runMoves_answered_cons (h.stepBy_seq (hes e List.mem_cons_self)) es).trans hrun, hreleased, ?_⟩
    rw [htrace', htrace, List.getLast?_cons_cons]
    simp

/-- Settles O51: the START loads the first byte, and each answer the next. -/
theorem queuedBytesAreSentInOrder : Obligations.QueuedBytesAreSentInOrder := by
  unfold Obligations.QueuedBytesAreSentInOrder
  intro q es s hinv hf hint hbtr hcls hq hlength hne hes
  obtain ⟨b, q, rfl⟩ := List.exists_cons_of_ne_nil hne
  have hpending := hinv.pending hf hint
  obtain ⟨hsending, htrace⟩ := sending_acted (s := s.enterEvent s.hwstat) hf ⟨hpending.req, rfl, hpending.stopp⟩ hbtr
    hinv.tx.inRange hq
  obtain ⟨t, hrun, hreleased, htrace'⟩ := hsending.run hlength fun e he => by
    obtain h | h | h | h := hes e he
    exacts [.inl h, .inr (.inl h), .inr (.inr (.inl h)), .inr (.inr (.inr (.inl h)))]
  refine ⟨t, (runMoves_cons (hpending.stepBy_seq_of_start hcls) _).trans hrun, hreleased.fault, hreleased.tx,
    hreleased.idle, ?_⟩
  rw [htrace', htrace]
  simp

/-! ### A reception -/

/-- SEQ receives: there is room in RX for the bytes BTR counts, and ENG is asked for the next one while any is left. -/
structure Receiving (s : State) : Prop where
  fault : s.fault = none
  int   : s.int = false
  stopp : s.stopp = false
  req   : s.req ≠ .none ↔ s.btr ≠ 0
  rx    : s.rx.InRange s.params.capacity
  room  : s.rx.count s.params.capacity + s.btr ≤ s.params.capacity

theorem Receiving.asked {s : State} (h : Receiving s) (hbtr : s.btr ≠ 0) : s.Asked :=
  ⟨h.fault, h.req.2 hbtr, h.int, h.stopp⟩

/-- Nothing is left to receive: the bus is released. -/
theorem Receiving.idle {s : State} (h : Receiving s) (hbtr : s.btr = 0) : Idle s :=
  ⟨not_not.1 (mt h.req.1 (not_not.2 hbtr)), h.int, h.stopp⟩

theorem reqAfter_nextAcknowledge (n : Nat) : reqAfter (nextAcknowledge n) ≠ .none ↔ n ≠ 0 := by
  match n with
  | 0 => decide
  | 1 => decide
  | n + 2 => simp [nextAcknowledge, reqAfter]

theorem reqAfter_chosenRequest (n : Nat) : reqAfter (chosenRequest true n) ≠ .none ↔ n ≠ 0 := by
  match n with
  | 0 => decide
  | 1 => decide
  | n + 2 => simp [chosenRequest, reqAfter]

/-- The entries TRACE gains with the bytes `es`, of which `n` were expected (R98, R100). -/
def acknowledged (n : Nat) (es : List (Byte × Byte)) : List TraceEntry :=
  es.mapIdx fun j e => ⟨.seq, nextAcknowledge (n - (j + 1)), e.2⟩

theorem acknowledged_cons (n : Nat) (e : Byte × Byte) (es : List (Byte × Byte)) :
    acknowledged n (e :: es) = ⟨.seq, nextAcknowledge (n - 1), e.2⟩ :: acknowledged (n - 1) es := by
  simp only [acknowledged, List.mapIdx_cons, Nat.sub_sub, Nat.add_comm 1, Nat.zero_add]

/-- What `t` has gained over `s` by the bytes `es`. -/
structure Gained (es : List (Byte × Byte)) (s t : State) : Prop where
  params   : t.params = s.params
  btr      : t.btr = s.btr - es.length
  contents : t.rx.contents .rx s.params.capacity = s.rx.contents .rx s.params.capacity ++ es.map (·.2)
  trace    : t.trace = s.trace ++ acknowledged s.btr es

theorem Gained.refl (s : State) : Gained [] s s := ⟨rfl, rfl, by simp, by simp [acknowledged]⟩

theorem Gained.cons {e : Byte × Byte} {es : List (Byte × Byte)} {s t u : State} (h : Gained [e] s t)
    (h' : Gained es t u) : Gained (e :: es) s u where
  params := h'.params.trans h.params
  btr := by
    rw [h'.btr, h.btr, Nat.sub_sub, List.length_singleton, List.length_cons, Nat.add_comm]
  contents := by
    rw [← h.params, h'.contents, h.params, h.contents, List.append_assoc]
    rfl
  trace := by
    rw [h'.trace, h.trace, h.btr, List.append_assoc, acknowledged_cons s.btr e es]
    rfl

theorem received_rx_of_expected (c : Byte) {s : State} (hbtr : s.btr ≠ 0) :
    (received c s).rx = pushed s.params.capacity s.rx s.data :=
  if_neg hbtr

theorem received_trace (c : Byte) (s : State) :
    (received c s).trace = s.trace ++ [⟨.seq, nextAcknowledge (s.btr - 1), s.data⟩] := rfl

/-- One byte received: it is in RX and counted off, and the next one is asked for. -/
theorem Receiving.next {s : State} (h : Receiving s) (hbtr : s.btr ≠ 0) {e : Byte × Byte}
    (he : classify s.params.statusMap e.1 = .drxAck ∨ classify s.params.statusMap e.1 = .drxNack) :
    ∃ t, stepBy .seq (s.engineAnswer e.1 e.2) = .next t ∧ Receiving t ∧ Gained [e] s t := by
  have hroom := h.room
  have hfull : ¬ RingFull s.rx := fun hfull => by
    have := Ring.count_of_full s.params.capacity hfull
    omega
  have hdata := State.engineAnswer_data_of_received (d := e.2) he
  have hrx : (received e.1 (s.engineAnswer e.1 e.2)).rx = pushed s.params.capacity s.rx e.2 := by
    rw [received_rx_of_expected e.1 (s := s.engineAnswer e.1 e.2) hbtr, hdata]
    rfl
  have htrace := received_trace e.1 (s.engineAnswer e.1 e.2)
  rw [hdata] at htrace
  refine ⟨received e.1 (s.engineAnswer e.1 e.2), ((h.asked hbtr).pending e.1 e.2).stepBy_seq_of_received he hfull, ?_,
    ⟨rfl, rfl, ?_, htrace⟩⟩
  · refine ⟨h.fault, rfl, h.stopp, reqAfter_nextAcknowledge _, ?_, ?_⟩ <;> rw [hrx]
    · exact h.rx.pushed e.2
    · have hcount := h.rx.count_pushed e.2 hfull
      change (pushed s.params.capacity s.rx e.2).count s.params.capacity + (s.btr - 1) ≤ s.params.capacity
      omega
  · rw [hrx]
    exact h.rx.contents_pushed .rx e.2 hfull

/-- As many answers as bytes expected, or fewer, are received in order. -/
theorem Receiving.run {es : List (Byte × Byte)} {s : State} (h : Receiving s) (hlength : es.length ≤ s.btr)
    (hes : ∀ e ∈ es, classify s.params.statusMap e.1 = .drxAck ∨ classify s.params.statusMap e.1 = .drxNack) :
    ∃ t, runMoves (answered es) s = .next t ∧ Receiving t ∧ Gained es s t := by
  induction es generalizing s with
  | nil => exact ⟨s, rfl, h, .refl s⟩
  | cons e es ih =>
    rw [List.length_cons] at hlength
    have hbtr : s.btr ≠ 0 := by omega
    obtain ⟨t, hstep, ht, hgained⟩ := h.next hbtr (hes e List.mem_cons_self)
    have hleft : es.length ≤ t.btr := by
      rw [hgained.btr, List.length_singleton]
      omega
    obtain ⟨u, hrun, hu, hgained'⟩ := ih ht hleft fun x hx => by
      rw [hgained.params]
      exact hes x (List.mem_cons_of_mem _ hx)
    exact ⟨u, ((h.asked hbtr).runMoves_answered_cons hstep es).trans hrun, hu, hgained.cons hgained'⟩

/-- The state after the ACK of an SLA+R alone in TX: the byte is off TX, and BTR chooses the request. -/
def State.addressAcked (s : State) : State :=
  { s.afterByteSent s.hwstat s.btr with
    trace := s.trace ++ [⟨.seq, chosenRequest true s.btr, s.data⟩]
    req := reqAfter (chosenRequest true s.btr) }

/-- Where a reception begins: an SLA+R alone in TX has been ACKed, and RX has room for what is expected. -/
structure Addressed (s : State) : Prop where
  pending : s.Pending
  cls     : classify s.params.statusMap s.hwstat = .slarAck
  tx      : s.tx.InRange s.params.capacity
  alone   : s.tx.count s.params.capacity = 1
  rx      : s.rx.InRange s.params.capacity
  room    : s.rx.count s.params.capacity + s.btr ≤ s.params.capacity

theorem Addressed.stepBy_seq {s : State} (h : Addressed s) : stepBy .seq s = .next s.addressAcked := by
  have hne : ¬ RingEmpty s.tx := fun hempty => nomatch h.alone.symm.trans (Ring.count_of_empty _ hempty)
  have hempty : RingEmpty (popped s.params.capacity s.tx) := by
    rw [h.tx.popped.empty_iff_count, h.tx.count_popped hne, h.alone]
  have hsent : IsSent (classify s.params.statusMap s.hwstat) := .inr (.inr (.inr (.inr h.cls)))
  rw [h.pending.stepBy_seq_of_sent hsent hne]
  exact congrArg Host.Outcome.next (acted_of_empty (s := s.afterByteSent s.hwstat s.btr) hempty)

theorem Addressed.receiving {s : State} (h : Addressed s) : Receiving s.addressAcked :=
  ⟨h.pending.fault, rfl, h.pending.stopp, reqAfter_chosenRequest s.btr, h.rx, h.room⟩

/-- The reception from the ACK of SLA+R on. -/
theorem Addressed.run {es : List (Byte × Byte)} {s : State} (h : Addressed s) (hlength : es.length ≤ s.btr)
    (hes : ∀ e ∈ es, classify s.params.statusMap e.1 = .drxAck ∨ classify s.params.statusMap e.1 = .drxNack) :
    ∃ t, runMoves (.seq :: answered es) s = .next t ∧ Receiving t ∧ Gained es s.addressAcked t := by
  rw [runMoves_cons h.stepBy_seq]
  exact h.receiving.run hlength hes

/-- Settles O50: the reception from the ACK of SLA+R on, with its entries in TRACE written out. -/
theorem lastByteOfAReceptionIsNacked : Obligations.LastByteOfAReceptionIsNacked := by
  unfold Obligations.LastByteOfAReceptionIsNacked
  intro es s hinv hf hint hcls hcount hbtr hlength hroom hes
  have haddressed : Addressed s := ⟨hinv.pending hf hint, hcls, hinv.tx.inRange, hcount, hinv.rx.inRange, hroom⟩
  obtain ⟨t, hrun, ht, hgained⟩ := haddressed.run hlength hes
  have hfirst : chosenRequest true s.btr = if s.btr = 1 then .nack else .cont :=
    if_neg (Nat.ne_of_gt hbtr)
  refine ⟨t, hrun, ht.fault, ht.int, hgained.btr, hgained.contents, ?_⟩
  rw [← hfirst]
  exact hgained.trace

end Sys2Proof.Machine
end

section
/-!
PROOFS. REQUEST_FROM from its four words to its result (42_host_commands.md R89): the two commands that start it, the bus
moves up to the last byte, and the two commands that end it.
-/

namespace Sys2Proof.Machine

open Sys2Proof Sys2Proof.Spec

/-! ### What no move of SEQ or ENG touches -/

/-- What only HOST writes (R17), and the parameters. -/
structure HostFrame (s t : State) : Prop where
  params : t.params = s.params
  hpc    : t.hpc = s.hpc
  hph    : t.hph = s.hph
  out    : t.out = s.out

theorem MoveStep.hostFrame {mv : Move} {s t : State} (h : MoveStep s mv t) (hmv : mv ≠ .host) : HostFrame s t := by
  cases h with
  | host => exact absurd rfl hmv
  | seq _ _ _ _ hs => exact ⟨hs.seqWrites.params, hs.seqWrites.hpc, hs.seqWrites.hph, hs.seqWrites.out⟩
  | none | answer | drop | stop => exact ⟨rfl, rfl, rfl, rfl⟩

theorem runMoves_hostFrame {mvs : List Move} {s t : State} (hmvs : ∀ mv ∈ mvs, mv ≠ .host)
    (h : runMoves mvs s = .next t) : HostFrame s t := by
  induction mvs generalizing s with
  | nil =>
    cases h
    exact ⟨rfl, rfl, rfl, rfl⟩
  | cons mv mvs ih =>
    rw [runMoves] at h
    split at h
    case h_1 u hstep =>
      have hfirst := (stepBy_next hstep).2.hostFrame (hmvs mv List.mem_cons_self)
      have hrest := ih (fun mv' hmv' => hmvs mv' (List.mem_cons_of_mem _ hmv')) h
      exact ⟨hrest.params.trans hfirst.params, hrest.hpc.trans hfirst.hpc, hrest.hph.trans hfirst.hph,
        hrest.out.trans hfirst.out⟩
    all_goals exact nomatch h

theorem ne_host_of_mem_answered {es : List (Byte × Byte)} {mv : Move} (h : mv ∈ answered es) : mv ≠ .host := by
  obtain ⟨e, -, he⟩ := List.mem_flatMap.1 h
  rintro rfl
  simp at he

/-! ### The bus moves of a read -/

/-- HOST has begun a read of as many bytes as BTR says, with the SLA+R alone in TX and RX empty. -/
structure ReadBegun (s : State) : Prop where
  asked : s.Asked
  tx    : s.tx.InRange s.params.capacity
  alone : s.tx.count s.params.capacity = 1
  rx    : s.rx.InRange s.params.capacity
  empty : RingEmpty s.rx
  room  : s.btr ≤ s.params.capacity

/-- SEQ's step at the START that was sent loads the SLA+R, which stays in TX until it is ACKed. -/
theorem ReadBegun.start {s : State} (h : ReadBegun s) {c d : Byte} (hcls : classify s.params.statusMap c = .start) :
    ∃ t, stepBy .seq (s.engineAnswer c d) = .next t ∧ ReadBegun t ∧ t.params = s.params ∧ t.btr = s.btr := by
  have hne : ¬ RingEmpty s.tx := fun hempty => nomatch h.alone.symm.trans (Ring.count_of_empty _ hempty)
  refine ⟨_, (h.asked.pending c d).stepBy_seq_of_start (.inl hcls), ?_⟩
  rw [acted_of_not_empty (s := (s.engineAnswer c d).enterEvent _) hne]
  exact ⟨⟨⟨h.asked.fault, nofun, rfl, h.asked.stopp⟩, h.tx, h.alone, h.rx, h.empty, h.room⟩, rfl, rfl⟩

theorem ReadBegun.addressed {s : State} (h : ReadBegun s) {c : Byte} (d : Byte)
    (hcls : classify s.params.statusMap c = .slarAck) : Addressed (s.engineAnswer c d) := by
  have hroom : s.rx.count s.params.capacity + s.btr ≤ s.params.capacity := by
    rw [Ring.count_of_empty _ h.empty, Nat.zero_add]
    exact h.room
  exact ⟨h.asked.pending c d, hcls, h.tx, h.alone, h.rx, hroom⟩

/-- The START, the ACK of SLA+R, and every byte: RX then holds the bytes, and the bus is released. -/
theorem ReadBegun.run {s : State} (h : ReadBegun s) {c0 c1 d0 d1 : Byte} {es : List (Byte × Byte)}
    (hstart : classify s.params.statusMap c0 = .start) (hack : classify s.params.statusMap c1 = .slarAck)
    (hes : ∀ e ∈ es, classify s.params.statusMap e.1 = .drxAck ∨ classify s.params.statusMap e.1 = .drxNack)
    (hlength : es.length = s.btr) :
    ∃ t, runMoves (answered ((c0, d0) :: (c1, d1) :: es)) s = .next t ∧ Receiving t ∧ t.btr = 0 ∧
      t.rx.contents .rx s.params.capacity = es.map (·.2) := by
  obtain ⟨u, hseq, hu, hparams, hbtr⟩ := h.start (d := d0) hstart
  have haddressed : Addressed (u.engineAnswer c1 d1) := hu.addressed d1 (by rwa [hparams])
  obtain ⟨t, hrun, ht, hgained⟩ := haddressed.run (es := es) (hlength.trans hbtr.symm).le fun e he => by
    rw [State.engineAnswer_params, hparams]
    exact hes e he
  refine ⟨t, ?_, ht, ?_, ?_⟩
  · rw [h.asked.runMoves_answered_cons (e := (c0, d0)) hseq]
    exact (runMoves_cons (hu.asked.stepBy_engAnswer c1 d1) _).trans hrun
  · rw [hgained.btr, hlength, ← hbtr]
    exact Nat.sub_self u.btr
  · have hcontents := hgained.contents
    have hbefore : u.rx.contents .rx u.params.capacity = [] := (hu.rx.contents_eq_nil_iff .rx).2 hu.empty
    rw [← hparams]
    exact hcontents.trans (congrArg (· ++ es.map (·.2)) hbefore)

/-! ### The host commands around them -/

/-- The state after BEGIN_RX and REQUEST_BYTES (R82, R83). -/
def State.readBegun (s : State) (a : Addr) (n : Byte) : State :=
  completed { begun (slaByte a .read) s with btr := n.toNat }

/-- HOST's first two commands, on an idle machine with both ring buffers empty. -/
theorem runMoves_beginRead {s : State} {a : Addr} {n : Byte} (hf : s.fault = none) (hidle : Idle s) (htx : RingEmpty s.tx)
    (hbtr : s.btr = 0) (hwidth : 8 ≤ s.params.btrWidth)
    (hw0 : s.params.program[s.hpc]? = some (0x4000 ||| a.setWidth 16))
    (hw1 : s.params.program[s.hpc + 1]? = some (0x5000 ||| n.setWidth 16)) :
    runMoves [.host, .host] s = .next (s.readBegun a n) := by
  have hbegin : stepBy .host s = .next (begun (slaByte a .read) s) := by
    rw [stepBy_host_of_decode hf hw0 (decodeCommand_beginRx_word a)]
    exact (beginTransaction_cases a .read s).2.2 htx hidle
  have hsum : s.btr + n.toNat = n.toNat := by omega
  have hrequest : stepBy .host (begun (slaByte a .read) s) = .next (s.readBegun a n) := by
    rw [stepBy_host_of_decode (s := begun (slaByte a .read) s) hf hw1 (decodeCommand_requestBytes_word n)]
    have hle : s.btr + n.toNat ≤ btrMax s.params := hsum.le.trans (byte_le_btrMax hwidth n)
    rw [exec_requestBytes_of_le (s := begun (slaByte a .read) s) hle]
    change Host.Outcome.next (completed { begun (slaByte a .read) s with btr := s.btr + n.toNat }) = _
    rw [hsum, State.readBegun]
  rw [runMoves_cons hbegin, runMoves_cons hrequest, runMoves]

theorem State.Inv.readBegun {s : State} (h : s.Inv) (a : Addr) {n : Byte} (hf : s.fault = none) (hidle : Idle s)
    (htx : RingEmpty s.tx) (hrx : RingEmpty s.rx) (hn : n.toNat ≤ s.params.capacity) : ReadBegun (s.readBegun a n) where
  asked := ⟨hf, nofun, hidle.2.1, hidle.2.2⟩
  tx := h.tx.inRange.pushed _
  alone := by
    have hcount := h.tx.inRange.count_pushed (slaByte a .read) (Ring.not_full_of_empty htx)
    rwa [Ring.count_of_empty _ htx] at hcount
  rx := h.rx.inRange
  empty := hrx
  room := hn

/-- END_RX with nothing left to receive and the engine idle takes one STOP and no event. -/
theorem runMoves_endRx {s : State} (hf : s.fault = none) (hidle : Idle s) (hhph : s.hph = .zero) (hbtr : s.btr = 0)
    (hw : s.params.program[s.hpc]? = some 0x8000) :
    runMoves [.host, .engStop, .host] s =
      .next (completed { s with trace := s.trace ++ [⟨.host, .stop, s.data⟩] }) :=
  runMoves_stop hf hidle hw decodeCommand_endRx (exec_endRx_of_done hhph hbtr) (exec_endRx_of_stopped rfl hidle.2.2)

/-- HOST's last two commands, END_RX and AVAILABLE, once every byte is in. -/
theorem runMoves_endRead {s : State} {n : Nat} (h : Receiving s) (hbtr : s.btr = 0) (hhph : s.hph = .zero)
    (hcount : s.rx.count s.params.capacity = n) (hw : s.params.program[s.hpc]? = some 0x8000)
    (hw' : s.params.program[s.hpc + 1]? = some 0x6000) :
    runMoves [.host, .engStop, .host, .host] s = .next (reported (BitVec.ofNat 16 n)
      (completed { s with trace := s.trace ++ [⟨.host, .stop, s.data⟩] })) := by
  have hend := runMoves_endRx h.fault (h.idle hbtr) hhph hbtr hw
  have hreport : stepBy .host (completed { s with trace := s.trace ++ [⟨.host, .stop, s.data⟩] }) =
      .next (reported (BitVec.ofNat 16 n) (completed { s with trace := s.trace ++ [⟨.host, .stop, s.data⟩] })) := by
    rw [stepBy_host_of_decode (s := completed { s with trace := s.trace ++ [⟨.host, .stop, s.data⟩] }) h.fault hw'
      decodeCommand_available]
    exact exec_available hcount
  exact (runMoves_append hend [.host]).trans (runMoves_cons hreport [])

/-- Settles O38: the two commands that begin, the bus moves, and the two commands that end. -/
theorem requestFromReportsTheBytesReceived : Obligations.RequestFromReportsTheBytesReceived := by
  unfold Obligations.RequestFromReportsTheBytesReceived
  intro a n c0 c1 d0 d1 es s hinv hf hidle htx hrx hbtr _ hn hlength hw0 hw1 hw2 hw3 hstart hack hes
  have hbegin := runMoves_beginRead hf hidle htx hbtr hinv.params.2.2.1 hw0 hw1
  have hbegun := hinv.readBegun a hf hidle htx hrx hn
  obtain ⟨t, hbus, ht, hbtr', hcontents⟩ := hbegun.run (d0 := d0) (d1 := d1) hstart hack hes hlength
  obtain ⟨hparams, hhpc, hhph, hout⟩ := runMoves_hostFrame (fun _ => ne_host_of_mem_answered) hbus
  have hparams : t.params = s.params := hparams
  have hhpc : t.hpc = s.hpc + 2 := hhpc
  have hcontents : t.rx.contents .rx s.params.capacity = es.map (·.2) := hcontents
  have hcount : t.rx.count t.params.capacity = n.toNat := by
    rw [hparams, ← t.rx.length_contents .rx, hcontents, List.length_map, hlength]
  have hend := runMoves_endRead ht hbtr' hhph hcount (by rw [hparams, hhpc, hw2]) (by rw [hparams, hhpc, hw3])
  refine ⟨_, (runMoves_append ((runMoves_append hbegin _).trans hbus) _).trans hend, ?_, hcontents, hbtr', ?_, ht.fault⟩
  · exact congrArg (· ++ [_]) hout
  · exact congrArg (· + 2) hhpc

end Sys2Proof.Machine
end
